-- ==== Sys2Proof/Word.lean ====
section
/-! DEFINITION. Word types of the block (00_scope.md R14, R17): nibble, byte, request word, sample code, and the
extended floating values a temperature ranges over. -/

namespace Sys2Proof

/-- A nibble is 4 bits, "the 4-bit half of a byte" (R14). -/
abbrev Nibble := BitVec 4

/-- A byte is 8 bits (R14). -/
abbrev Byte := BitVec 8

/-- A request word is 32 bits, bit 31 most significant (R90). -/
abbrev RequestWord := BitVec 32

/-- An analog sample, "unsigned integer in [0, 4095] (12-bit range)" (R96). -/
abbrev SampleCode := BitVec 12

/-- `hi(b) = b[7:4]` (R14). -/
abbrev hiNibble (b : Byte) : Nibble := b.extractLsb' 4 4

/-- `lo(b) = b[3:0]` (R14). -/
abbrev loNibble (b : Byte) : Nibble := b.extractLsb' 0 4

/-- `Temp = F ∪ {+inf, -inf, NaN}` (R17, R44). `F`, the finite values of `FLOAT_FMT`, is held by value: the format
is an open parameter, so any rational may be one of its values, and the second zero of a format that has one is a
constructor of its own (assumption log 15). -/
inductive Temp where
  | finite (x : Rat)
  | negZero
  | posInf
  | negInf
  | nan
  deriving DecidableEq, Repr, Inhabited

/-- The rational a finite value stands for; none for the infinities and NaN. -/
def Temp.value? : Temp → Option Rat
  | .finite x => some x
  | .negZero => some 0
  | .posInf => none
  | .negInf => none
  | .nan => none

/-- The value is an element of `F` (R229). -/
def Temp.isFinite (t : Temp) : Bool := t.value?.isSome

/-- `a < b` between finite values (R230); false when either is not finite. -/
def Temp.below (a b : Temp) : Bool :=
  match a.value?, b.value? with
  | some x, some y => decide (x < y)
  | _, _ => false

end Sys2Proof
end

