-- ==== Sys2Proof/Config.lean ====
section
/-! DEFINITION. The open parameters of the block (00_scope.md R10, R11; 92_eei_decisions.md, "Open parameters,
collected"). Every one is a constant with no body: nothing can be proved of its value. The block's numerics, the free
record constrained to be admissible, stand in Machine/Numerics.lean beside the formula that says which records are. -/

namespace Sys2Proof

/-- The numerics record `NUM` (R222): total functions of their operands alone, and the constants of the formula whose
values the spec leaves to the block, `SH_A`, `SH_B` and `SH_C` (R10). `F` is held by value, so `ofInt` and the constants
are rationals (assumption log 15). `R_FIXED = 10000`, `KELVIN_OFFSET = 273.15` and the `1` of `fdiv(1, invT)` are fixed
(R9, R220; Machine/Numerics.lean): what a format that cannot hold `273.15` (R225) takes in its place is part of what
`fsub` does with that operand (assumption log 14). `minNormal` is the format's least positive normal value, which R231's
word "subnormal" refers to. -/
structure Num where
  ofInt : SampleCode → Rat
  fmul : Temp → Temp → Temp
  fdiv : Temp → Temp → Temp
  fadd : Temp → Temp → Temp
  fsub : Temp → Temp → Temp
  ln : Temp → Temp
  cube : Temp → Temp
  shA : Rat
  shB : Rat
  shC : Rat
  minNormal : Rat

namespace Config

/-- `HAS_BACKLIGHT` (R10, D12): the backlight line is "optional"; fixed at construction. Free (assumption log 16). -/
opaque hasBacklight : Bool

/-- By how many milliseconds the timing collaborator's return from its `n`-th delay outlasts what was asked; a negative
one counts as zero ("any value `>= n`, drawn by the timing collaborator at each delay", U11; R132, R270). Free
(assumption log 2). -/
opaque lateness : Nat → Rat

/-- `HOST_ROUND` (R279, D20): whether the host rounds a temperature that has more than one decimal away from zero or
toward it. Outside the block. Free (assumption log 24). -/
opaque hostRoundUp : Temp → Bool

/-- What the host writes before a temperature's own digits, where R279 leaves it open: padding, and the whole of a
negative value before its decimal point (`HOST_NEG`, D20). Outside the block. Free (assumption log 24). -/
opaque hostBefore : Temp → List Byte

/-- What the host writes after a temperature's one decimal, where R279 leaves padding open. Outside the block. Free
(assumption log 24). -/
opaque hostAfter : Temp → List Byte

/-- `HOST_NAN` (R281, D20): the host's rendering of NaN and `-inf`. Outside the block. Free (assumption log 24). -/
opaque hostNonFinite : Temp → List Byte

end Config

end Sys2Proof
end

