-- ==== Sys2Proof/Syntax.lean ====
section
/-! DEFINITION. The operations, micro-operations, micro-routines and bus patterns of spec/opcode_table.json, one
constructor of `Instr` per row, with the lines and levels they name (00_scope.md R15, R19; 30_encoding.md). -/

namespace Sys2Proof

/-- `Line = {D0, D1, D2, D3, RS, E, BL}` (R15, R31): four data lines, mode-select, strobe, backlight. -/
inductive Line where
  | d0 | d1 | d2 | d3 | rs | e | bl
  deriving DecidableEq, Repr

/-- `Level = {H, L}`, the level a line is driven to (R15). -/
inductive Level where
  | h | l
  deriving DecidableEq, Repr

/-- A micro-operation (R19, R131, R132), and, once performed, the event it leaves in the trace (R12). -/
inductive MicroOp where
  | set (l : Line) (v : Level)
  | delay (ms : BitVec 7)
  deriving DecidableEq, Repr

/-- One constructor per row of spec/opcode_table.json. -/
inductive Instr where
  /-- `INIT` (R160) -/
  | init
  /-- `COMMAND byte` (R180) -/
  | command (b : Byte)
  /-- `WRITEDATA byte` (R181) -/
  | writeData (b : Byte)
  /-- `SETPOSITION row, col` (R201) -/
  | setPosition (row col : Byte)
  /-- `PRINT row, col, text` with the text in `TXT[0] .. TXT[len-1]` (R202, R95) -/
  | print (row col len : Byte)
  /-- `CLEAR` (R182) -/
  | clear
  /-- `CONVERT code` (R220) -/
  | convert (code : SampleCode)
  /-- `(illegal)`: every request word no other row matches (R99) -/
  | illegal (w : RequestWord)
  /-- `SET line, level`, a micro-operation (R131) -/
  | set (l : Line) (v : Level)
  /-- `DELAY ms`, a micro-operation (R132) -/
  | delay (ms : BitVec 7)
  /-- `LATCH n`, a micro-routine (R134) -/
  | latch (n : Nibble)
  /-- `SENDBYTE b`, a micro-routine (R136) -/
  | sendByte (b : Byte)
  /-- `NIB_WAKE`: the raw nibble `0x3` on the bus (R106, R160) -/
  | nibWake
  /-- `NIB_4BIT`: the raw nibble `0x2` on the bus (R106, R160) -/
  | nib4Bit
  /-- `CMD_FUNCTION_SET`: the command byte `0x28` on the bus (R106) -/
  | cmdFunctionSet
  /-- `CMD_DISPLAY_CTRL`: the command byte `0x0C` on the bus (R106) -/
  | cmdDisplayCtrl
  /-- `CMD_CLEAR`: the command byte `0x01` on the bus, with its settle delay (R106, R183) -/
  | cmdClear
  /-- `CMD_ENTRY_MODE`: the command byte `0x06` on the bus (R106) -/
  | cmdEntryMode
  /-- `CMD_ADDR_ROW0`: the command byte `0x80 + c` on the bus (R106) -/
  | cmdAddrRow0 (c : Nibble)
  /-- `CMD_ADDR_ROW1`: the command byte `0xC0 + c` on the bus (R106) -/
  | cmdAddrRow1 (c : Nibble)
  /-- `DATA_BYTE`: any byte on the bus with `RS` high (R105, R181) -/
  | dataByte (d : Byte)
  deriving DecidableEq, Repr

/-- A micro-operation as the instruction of its opcode-table row. -/
def MicroOp.toInstr : MicroOp → Instr
  | .set l v => .set l v
  | .delay ms => .delay ms

/-- What an instruction looks like in the encoding space its row of the table belongs to (30_encoding.md's three
spaces; R111 for the micro-routines, which have no word and are expanded inline into micro-operation words). -/
inductive Code where
  /-- the request word (R90) -/
  | request (w : RequestWord)
  /-- micro-operation words, one for `SET` and `DELAY`, the inline expansion for `LATCH` and `SENDBYTE` -/
  | uops (ws : List Byte)
  /-- a raw nibble on the bus, `RS` low (R104, R106) -/
  | busNibble (n : Nibble)
  /-- a byte on the bus with `RS` at the level of its kind (R105) -/
  | busByte (rs : Level) (b : Byte)
  deriving DecidableEq, Repr

end Sys2Proof
end

