-- ==== Sys2Proof/WellFormed.lean ====
section
/-! DEFINITION. Which terms of `Instr` are instructions: the micro-operation words R103 reserves are none, and
`illegal` holds only words R99 calls illegal. -/

namespace Sys2Proof

/-- The request rows of spec/opcode_table.json as (mask, match): a word belongs to a row when its masked bits are
the row's (R91 to R96). -/
def requestRows : List (RequestWord × RequestWord) :=
  [(0xFFFFFFFF, 0x10000000), (0xFFFFFF00, 0x20000000), (0xFFFFFF00, 0x30000000), (0xFF0000FF, 0x40000000),
   (0xFF000000, 0x50000000), (0xFFFFFFFF, 0x60000000), (0xFFFFF000, 0x70000000)]

/-- R99: no row of the table matches the word. -/
def requestIllegal (w : RequestWord) : Bool := requestRows.all fun r => w &&& r.1 != r.2

/-- A micro-operation that R103 does not reserve. -/
def MicroOp.wellFormed : MicroOp → Bool
  | .set .bl _ => Config.hasBacklight
  | .set _ _ => true
  | .delay ms => ms != 0

/-- The term is an instruction of the table. -/
def Instr.wellFormed : Instr → Bool
  | .init => true
  | .command _ => true
  | .writeData _ => true
  | .setPosition _ _ => true
  | .print _ _ _ => true
  | .clear => true
  | .convert _ => true
  | .illegal w => requestIllegal w
  | .set l v => (MicroOp.set l v).wellFormed
  | .delay ms => (MicroOp.delay ms).wellFormed
  | .latch _ => true
  | .sendByte _ => true
  | .nibWake => true
  | .nib4Bit => true
  | .cmdFunctionSet => true
  | .cmdDisplayCtrl => true
  | .cmdClear => true
  | .cmdEntryMode => true
  | .cmdAddrRow0 _ => true
  | .cmdAddrRow1 _ => true
  | .dataByte _ => true

end Sys2Proof
end

