-- ==== Sys2Proof/Decode.lean ====
section
/-! DEFINITION. The decoders of 30_encoding.md's three spaces, the encoder, and the host's entry to them. -/

namespace Sys2Proof

/-! ## Request words -/

/-- `decode` of R98, total on 32-bit words; `Invalid` is the table's `(illegal)` row. -/
def decodeRequest (w : RequestWord) : Instr :=
  let opc := w.extractLsb' 28 4
  if opc = 0x1 then
    if w.extractLsb' 0 28 = 0 then .init else .illegal w
  else if opc = 0x2 then
    if w.extractLsb' 8 20 = 0 then .command (w.extractLsb' 0 8) else .illegal w
  else if opc = 0x3 then
    if w.extractLsb' 8 20 = 0 then .writeData (w.extractLsb' 0 8) else .illegal w
  else if opc = 0x4 then
    if w.extractLsb' 24 4 = 0 ∧ w.extractLsb' 0 8 = 0 then
      .setPosition (w.extractLsb' 16 8) (w.extractLsb' 8 8)
    else .illegal w
  else if opc = 0x5 then
    if w.extractLsb' 24 4 = 0 then
      .print (w.extractLsb' 16 8) (w.extractLsb' 8 8) (w.extractLsb' 0 8)
    else .illegal w
  else if opc = 0x6 then
    if w.extractLsb' 0 28 = 0 then .clear else .illegal w
  else if opc = 0x7 then
    if w.extractLsb' 12 16 = 0 then .convert (w.extractLsb' 0 12) else .illegal w
  else .illegal w

/-! ## Micro-operation words -/

/-- The line of a line id (R100); id 7 is reserved. -/
def lineOfId (id : BitVec 3) : Option Line :=
  if id = 0 then some .d0
  else if id = 1 then some .d1
  else if id = 2 then some .d2
  else if id = 3 then some .d3
  else if id = 4 then some .rs
  else if id = 5 then some .e
  else if id = 6 then some .bl
  else none

/-- The id of a line (R100). -/
def Line.id : Line → BitVec 3
  | .d0 => 0
  | .d1 => 1
  | .d2 => 2
  | .d3 => 3
  | .rs => 4
  | .e => 5
  | .bl => 6

/-- `level` 1 is `H`, 0 is `L` (R101). -/
def levelOfBit (b : Bool) : Level := if b then .h else .l

/-- R101 read backwards. -/
def Level.bit : Level → BitVec 1
  | .h => 1
  | .l => 0

/-- A micro-operation word (R101, R102), refusing the words R103 reserves. -/
def decodeMicroOp (w : Byte) : Option MicroOp :=
  if w.getLsbD 7 then
    if w.extractLsb' 0 7 = 0 then none else some (.delay (w.extractLsb' 0 7))
  else if w.extractLsb' 1 3 = 0 then
    (lineOfId (w.extractLsb' 4 3)).bind fun l =>
      let u := MicroOp.set l (levelOfBit (w.getLsbD 0))
      if u.wellFormed then some u else none
  else none

/-- The word of a micro-operation (R101, R102). -/
def MicroOp.word : MicroOp → Byte
  | .set l v => (0#1 ++ l.id : BitVec 4) ++ (0#3 ++ v.bit : BitVec 4)
  | .delay ms => 1#1 ++ ms

/-! ## Micro-routines: no word, expanded inline (R111) -/

/-- The words of the eight micro-operations of `LATCH n` (R134). -/
def latchWords (n : Nibble) : List Byte :=
  [MicroOp.word (.set .d0 (levelOfBit (n.getLsbD 0))), MicroOp.word (.set .d1 (levelOfBit (n.getLsbD 1))),
   MicroOp.word (.set .d2 (levelOfBit (n.getLsbD 2))), MicroOp.word (.set .d3 (levelOfBit (n.getLsbD 3))),
   0x51, 0x81, 0x50, 0x81]

/-- The nibble whose latch cycle starts with four data-line words: their level bits. -/
def nibbleOfWords (w0 w1 w2 w3 : Byte) : Nibble :=
  (w3.extractLsb' 0 1 ++ w2.extractLsb' 0 1 : BitVec 2) ++ (w1.extractLsb' 0 1 ++ w0.extractLsb' 0 1 : BitVec 2)

/-- One latch cycle's words, refusing any other eight. -/
def decodeLatchWords : List Byte → Option Nibble
  | [w0, w1, w2, w3, w4, w5, w6, w7] =>
    let n := nibbleOfWords w0 w1 w2 w3
    if latchWords n = [w0, w1, w2, w3, w4, w5, w6, w7] then some n else none
  | _ => none

/-- A list of micro-operation words: one word is `SET` or `DELAY`, a latch cycle is `LATCH`, two are `SENDBYTE`. -/
def decodeMicroWords (ws : List Byte) : Option Instr :=
  if ws.length = 1 then
    (ws.head?.bind decodeMicroOp).map MicroOp.toInstr
  else if ws.length = 8 then
    (decodeLatchWords ws).map Instr.latch
  else if ws.length = 16 then
    match decodeLatchWords (ws.take 8), decodeLatchWords (ws.drop 8) with
    | some h, some l => some (.sendByte (h ++ l))
    | _, _ => none
  else none

/-! ## Bus patterns (R104 to R106) -/

/-- A raw nibble the driver sends (R106). -/
def decodeBusNibble (n : Nibble) : Option Instr :=
  if n = 0x3 then some .nibWake else if n = 0x2 then some .nib4Bit else none

/-- A command byte the driver itself generates (R106, "the complete set"); a host `COMMAND` of another byte is no
row of the table. -/
def decodeBusCommand (b : Byte) : Option Instr :=
  if b = 0x28 then some .cmdFunctionSet
  else if b = 0x0C then some .cmdDisplayCtrl
  else if b = 0x01 then some .cmdClear
  else if b = 0x06 then some .cmdEntryMode
  else if hiNibble b = 0x8 then some (.cmdAddrRow0 (loNibble b))
  else if hiNibble b = 0xC then some (.cmdAddrRow1 (loNibble b))
  else none

/-- A byte on the bus: `RS` low is a command, `RS` high is data (R105). -/
def decodeBusByte : Level → Byte → Option Instr
  | .l, b => decodeBusCommand b
  | .h, b => some (.dataByte b)

/-! ## All spaces together -/

/-- The decoder of every space. -/
def decode : Code → Option Instr
  | .request w => some (decodeRequest w)
  | .uops ws => decodeMicroWords ws
  | .busNibble n => decodeBusNibble n
  | .busByte rs b => decodeBusByte rs b

/-- The encoder, written from the same tables (R91 to R96, R101, R102, R106, R111). -/
def encode : Instr → Code
  | .init => .request 0x10000000
  | .command b => .request ((0x200000#24 : BitVec 24) ++ b)
  | .writeData b => .request ((0x300000#24 : BitVec 24) ++ b)
  | .setPosition row col => .request (((0x40#8 ++ row : BitVec 16) ++ col : BitVec 24) ++ 0#8)
  | .print row col len => .request (((0x50#8 ++ row : BitVec 16) ++ col : BitVec 24) ++ len)
  | .clear => .request 0x60000000
  | .convert code => .request ((0x70000#20 : BitVec 20) ++ code)
  | .illegal w => .request w
  | .set l v => .uops [MicroOp.word (.set l v)]
  | .delay ms => .uops [MicroOp.word (.delay ms)]
  | .latch n => .uops (latchWords n)
  | .sendByte b => .uops (latchWords (hiNibble b) ++ latchWords (loNibble b))
  | .nibWake => .busNibble 0x3
  | .nib4Bit => .busNibble 0x2
  | .cmdFunctionSet => .busByte .l 0x28
  | .cmdDisplayCtrl => .busByte .l 0x0C
  | .cmdClear => .busByte .l 0x01
  | .cmdEntryMode => .busByte .l 0x06
  | .cmdAddrRow0 c => .busByte .l (0x8#4 ++ c)
  | .cmdAddrRow1 c => .busByte .l (0xC#4 ++ c)
  | .dataByte d => .busByte .h d

/-- The host's entry: the instruction the decoder reads from a word of `nbits` bits. 32 bits is the request word.
8 bits is a micro-operation word and, where R103 reserves it as one, a command byte on the bus; 4 bits is a raw
nibble on the bus. The bus patterns share the 8-bit width with the micro-operation words and the entry has no
argument that tells the two spaces apart (assumption log 20); `decode` keeps them apart. -/
def decodeTableWord (nbits w : Nat) : Option Instr :=
  if nbits = 32 then decode (.request (BitVec.ofNat 32 w))
  else if nbits = 8 then
    match decode (.uops [BitVec.ofNat 8 w]) with
    | some i => some i
    | none => decode (.busByte .l (BitVec.ofNat 8 w))
  else if nbits = 4 then decode (.busNibble (BitVec.ofNat 4 w))
  else none

end Sys2Proof
end

