-- ==== Sys2Proof/Machine/State.lean ====
section
/-! DEFINITION. The state of the block (10_state.md R30, R50), its ports (60_exceptions.md R285) and its
surroundings (00_scope.md R13), all as plain data, with the value of each field after reset. -/

namespace Sys2Proof.Machine

/-- What a line latch holds: `H`, `L`, or `U`, "never driven since reset" (R31, R34). -/
inductive Latch where
  | h | l | u
  deriving DecidableEq, Repr

/-- The seven line latches (R31). `bl` exists only with a backlight; without one it stays `U` (R35, D12). -/
structure Lines where
  d0 : Latch
  d1 : Latch
  d2 : Latch
  d3 : Latch
  rs : Latch
  e : Latch
  bl : Latch
  deriving DecidableEq, Repr

/-- The controller-state tag `cs` (R36). -/
inductive CtrlState where
  | unknown | forcingEightBit | fourBitMode | configured
  deriving DecidableEq, Repr

/-- The fault codes (R250). They are values of the `fault` register and of the response: the block has no vector and
no handler (R256). -/
inductive FaultCode where
  /-- `F_ILLEGAL_REQ = 1` (R251) -/
  | illegalReq
  /-- `F_NOT_CONFIGURED = 2` (R252) -/
  | notConfigured
  /-- `F_REINIT = 3` (R253) -/
  | reinit
  deriving DecidableEq, Repr

/-- The operand latches `op` (R51): the decoded operation, and for `PRINT` its text, sampled at acceptance. -/
structure OpLatch where
  instr : Instr
  text : List Byte
  deriving DecidableEq, Repr

/-- Who handed a delay to the timing collaborator (R271: the host's cadence wait uses the same one). -/
inductive DelayOwner where
  | sequencer | host
  deriving DecidableEq, Repr

/-- A delay handed to the timing collaborator and not yet returned (R48); 16 bits at the port (R271). -/
structure PendingDelay where
  ms : BitVec 16
  owner : DelayOwner
  deriving DecidableEq, Repr

/-- The timing collaborator (R13, R270, R272). `answered` counts the delays it has returned from: by how much each of
them outlasts what was asked is a draw (R132, R270; `Config.lateness`, assumption log 2). It returns from every delay,
or, when `hangsAt` is a number, from no delay from that one on (R272; assumption log 2). -/
structure Timer where
  answered : Nat
  hangsAt : Option Nat
  deriving DecidableEq, Repr

/-- What the host can do while `busy = 0` (R282): present a request word, write `TXT` (R63), or wait out its cadence
through the timing collaborator (R271, R278). -/
inductive HostAct where
  | request (w : RequestWord)
  | writeTxt (a : BitVec 8) (b : Byte)
  | wait (ms : BitVec 16)
  deriving DecidableEq, Repr

/-- The response to a request (R113): `fault_code` and, for `CONVERT`, `temp`. Its presence is `done`. -/
structure Response where
  faultCode : Option FaultCode
  temp : Option Temp
  deriving DecidableEq, Repr

/-- The machine stops with a fault. Nothing in the spec stops the block: its three faults are recorded and answered,
and the machine goes on (R256 to R258, `FaultCode`), and a stalled delay is a state it stays in (R272). So no reason
exists, nothing raises one, and that is safe. -/
inductive Fault : Type where
  deriving DecidableEq, Repr

/-- The machine has no meaning for what it was given. -/
inductive Refusal where
  /-- No meaning yet. Raised by an arm of `exec` only; safe. -/
  | notModelled (mnemonic : String)
  /-- A bus operation or an illegal word executed while `busy = 1`: "a request presented while `busy = 1` cannot
  occur" (R139), treatment "refuse" (93_implementation_defined.md U9). Raised by the meanings of the requests; safe
  (assumption log 17). -/
  | requestWhileBusy
  /-- A micro-operation R103 reserves: `SET` of the backlight line of a block without one, or `DELAY 0`. Treatment
  "refuse" (U12). Raised by the meanings of `SET` and `DELAY`; safe (assumption log 18). -/
  | reservedMicroOp
  deriving DecidableEq, Repr

/-- The whole state: the block's own (R30), its text buffer (R61), its ports' (R48, R113, R285), the model's
bookkeeping (R46), and the surroundings' coming moves, which no statement may rest on (assumption log 1 to 3). -/
structure State where
  /-- the line latches `L` (R31) -/
  lines : Lines
  /-- the controller-state tag (R36) -/
  cs : CtrlState
  /-- the busy flag (R39) -/
  busy : Bool
  /-- the sequencer position (R40), a natural number -/
  upc : Nat
  /-- the operand latches (R51) -/
  op : OpLatch
  /-- the sticky fault register (R42); none is the spec's `None` -/
  fault : Option FaultCode
  /-- the result register (R44); none is the spec's `None` -/
  temp : Option Temp
  /-- the text buffer `TXT` (R61): 256 bytes, canonical (`Memory.wf`) -/
  txt : List Host.Cell
  /-- the delay handed out and not yet returned (R48; `dly_start`, `dly_ms` of R285) -/
  pending : Option PendingDelay
  /-- the response port (R113, R285): present once the last request's `done` has been signalled -/
  resp : Option Response
  /-- all events since reset, oldest first (R46) -/
  trace : List MicroOp
  /-- elapsed milliseconds since reset (R46) -/
  now : Rat
  /-- the surroundings: what the host does next, oldest first (R13) -/
  host : List HostAct
  /-- the surroundings: how the timing collaborator answers (R13) -/
  timer : Timer
  /-- the surroundings: the level of the reset input at each coming step, low after the list (R285) -/
  rst : List Bool
  deriving DecidableEq, Repr

/-- Every latch `U` (R34). -/
def Lines.undriven : Lines := ⟨.u, .u, .u, .u, .u, .u, .u⟩

/-- The machine right after reset (R50, R300). The operand latches and `TXT` are "unspecified" there: they hold the
operation of the all-zero word and zeros (assumption log 5, 6). The surroundings do nothing (assumption log 1 to 3). -/
def State.reset : State where
  lines := .undriven
  cs := .unknown
  busy := false
  upc := 0
  op := ⟨.illegal 0, []⟩
  fault := none
  temp := none
  txt := []
  pending := none
  resp := none
  trace := []
  now := 0
  host := []
  timer := ⟨0, none⟩
  rst := []

end Sys2Proof.Machine
end

