-- ==== Sys2Proof/Machine/Operands.lean ====
section
/-! DEFINITION. Operand forms: the level of a bit (20_memory.md R69, R104), the position operand (43_position_print.md
R200) and the text operand in `TXT` (20_memory.md R61, R62). -/

namespace Sys2Proof.Machine

/-- "a 1 bit is level `H`, a 0 bit is level `L`" (R69, R104). -/
def bitLevel (b : Bool) : Level := if b then .h else .l

/-- The column clamp of R200: `c = min(col, 15)`, four bits. -/
def clampCol (col : Byte) : Nibble := BitVec.ofNat 4 (min col.toNat 15)

/-- `pos_cmd(row, col)` of R200: the set-address command byte, none for an invalid row. -/
def posCmd (row col : Byte) : Option Byte :=
  let c : Byte := (clampCol col).setWidth 8
  if row = 0 then some (0x80 + c) else if row = 1 then some (0xC0 + c) else none

/-- What an address of `TXT` reads as when nothing has been written to it: zero (R61 leaves it unspecified;
assumption log 6). -/
def Memory.unlisted : Byte := 0

/-- The one form `TXT` is kept in: addresses strictly rising and below 256, no entry equal to what an unlisted
address reads as. -/
def Memory.wf : List Host.Cell → Bool
  | [] => true
  | [c] => decide (c.1 < 256) && c.2 != Memory.unlisted
  | c :: d :: m => decide (c.1 < d.1) && c.2 != Memory.unlisted && Memory.wf (d :: m)

/-- The byte at an address. -/
def Memory.read : List Host.Cell → Nat → Byte
  | [], _ => Memory.unlisted
  | c :: m, a => if c.1 = a then c.2 else Memory.read m a

/-- Insert or replace the byte at an address, keeping addresses rising. -/
def Memory.insert : List Host.Cell → Nat → Byte → List Host.Cell
  | [], a, b => [(a, b)]
  | c :: m, a, b =>
    if a < c.1 then (a, b) :: c :: m
    else if c.1 = a then (a, b) :: m
    else c :: Memory.insert m a b

/-- Remove the entry at an address. -/
def Memory.erase : List Host.Cell → Nat → List Host.Cell
  | [], _ => []
  | c :: m, a => if c.1 = a then m else c :: Memory.erase m a

/-- Write the byte at an address, keeping the canonical form. -/
def Memory.write (m : List Host.Cell) (a : Nat) (b : Byte) : List Host.Cell :=
  if b = Memory.unlisted then Memory.erase m a else Memory.insert m a b

/-- `MemRead(TXT, a, 1)` (R62): it cannot fault and changes nothing. -/
def txtRead (s : State) (a : BitVec 8) : Byte := Memory.read s.txt a.toNat

/-- The text operand of a `PRINT` of length `len`: `TXT[0] .. TXT[len-1]`, index 0 first (R61, R70, R95). -/
def printText (s : State) (len : Byte) : List Byte :=
  (List.range len.toNat).map fun k => Memory.read s.txt k

end Sys2Proof.Machine
end

