-- ==== Sys2Proof/Machine/MicroProgram.lean ====
section
/-! DEFINITION. Micro-programs (40_bus_primitives.md R133): a pure function of the operation and its operands, fixed
at acceptance. -/

namespace Sys2Proof.Machine

/-- `latch(n)` (R134): data lines in ascending order, strobe high, hold, strobe low, hold. -/
def latchProgram (n : Nibble) : List MicroOp :=
  [.set .d0 (bitLevel (n.getLsbD 0)), .set .d1 (bitLevel (n.getLsbD 1)), .set .d2 (bitLevel (n.getLsbD 2)),
   .set .d3 (bitLevel (n.getLsbD 3)), .set .e .h, .delay 1, .set .e .l, .delay 1]

/-- `sendbyte(b)` (R136): high nibble, then low nibble. -/
def sendByteProgram (b : Byte) : List MicroOp := latchProgram (hiNibble b) ++ latchProgram (loNibble b)

/-- `uprog(COMMAND b)` (R180), with the settle delay after byte `0x01` only (R183). -/
def commandProgram (b : Byte) : List MicroOp :=
  .set .rs .l :: sendByteProgram b ++ if b = 0x01 then [.delay 2] else []

/-- `uprog(WRITEDATA b)` (R181). -/
def writeDataProgram (b : Byte) : List MicroOp := .set .rs .h :: sendByteProgram b

/-- `uprog(SETPOSITION r, c)` (R201). -/
def setPositionProgram (row col : Byte) : List MicroOp :=
  match posCmd row col with
  | some a => commandProgram a
  | none => []

/-- `uprog(PRINT r, c, text)` (R202). -/
def printProgram (row col : Byte) (text : List Byte) : List MicroOp :=
  match posCmd row col with
  | some a => commandProgram a ++ text.flatMap writeDataProgram
  | none => []

/-- The part of `INIT` up to the latch cycle of the raw nibble `0x2` (R160). -/
def initForcing : List MicroOp :=
  [.set .rs .l, .delay 20] ++ latchProgram 0x3 ++ [.delay 5] ++ latchProgram 0x3 ++ [.delay 1] ++
    latchProgram 0x3 ++ latchProgram 0x2

/-- The four configuration commands of `INIT` (R160, R165). -/
def initConfigure : List MicroOp :=
  commandProgram 0x28 ++ commandProgram 0x0C ++ commandProgram 0x01 ++ commandProgram 0x06

/-- `BL_ON_LEVEL = H` (R11, R166, D12). -/
def blOnLevel : Level := .h

/-- `uprog(INIT)` (R160), `bl` being `HAS_BACKLIGHT`. -/
def initProgram (bl : Bool) : List MicroOp :=
  initForcing ++ initConfigure ++ if bl then [.set .bl blOnLevel] else []

/-- `uprog` (R133) of what the operand latches hold, `bl` being `HAS_BACKLIGHT`. A micro-operation is its own
micro-program, a micro-routine is its inline expansion (R111), a bus pattern is what the driver sends to produce it
(R106); `CONVERT` and an illegal word have none (R130, R255). -/
def uprogWith (bl : Bool) (op : OpLatch) : List MicroOp :=
  match op.instr with
  | .init => initProgram bl
  | .command b => commandProgram b
  | .writeData b => writeDataProgram b
  | .setPosition row col => setPositionProgram row col
  | .print row col _ => printProgram row col op.text
  | .clear => commandProgram 0x01
  | .convert _ => []
  | .illegal _ => []
  | .set l v => [.set l v]
  | .delay ms => [.delay ms]
  | .latch n => latchProgram n
  | .sendByte b => sendByteProgram b
  | .nibWake => latchProgram 0x3
  | .nib4Bit => latchProgram 0x2
  | .cmdFunctionSet => commandProgram 0x28
  | .cmdDisplayCtrl => commandProgram 0x0C
  | .cmdClear => commandProgram 0x01
  | .cmdEntryMode => commandProgram 0x06
  | .cmdAddrRow0 c => commandProgram (0x80 + c.setWidth 8)
  | .cmdAddrRow1 c => commandProgram (0xC0 + c.setWidth 8)
  | .dataByte d => writeDataProgram d

/-- `uprog` (R133) of this block. -/
def uprog (op : OpLatch) : List MicroOp := uprogWith Config.hasBacklight op

/-- The milliseconds a micro-program asks of the timing collaborator (R320). -/
def requestedMs : List MicroOp → Nat
  | [] => 0
  | .set _ _ :: us => requestedMs us
  | .delay ms :: us => ms.toNat + requestedMs us

end Sys2Proof.Machine
end

