-- ==== Sys2Proof/Machine/Flags.lean ====
section
/-! DEFINITION. The status the block keeps: the codes of `cs` and `fault` (10_state.md R36, R42), the points at which
`INIT` advances `cs` (R37), and which state admits which operation (60_exceptions.md R263). -/

namespace Sys2Proof.Machine

/-- `cs` as a two-bit register (R36). -/
def CtrlState.code : CtrlState → BitVec 2
  | .unknown => 0
  | .forcingEightBit => 1
  | .fourBitMode => 2
  | .configured => 3

/-- A fault code as two bits (R250). -/
def FaultCode.code : FaultCode → BitVec 2
  | .illegalReq => 1
  | .notConfigured => 2
  | .reinit => 3

/-- The `fault` register and the response's `fault_code` as two bits, `None = 0` (R42, R113). -/
def faultBits : Option FaultCode → BitVec 2
  | none => 0
  | some c => c.code

/-- `cs` once the micro-operation before position `upc` has completed (R37): `FourBitMode` after the latch cycle of
the raw nibble `0x2`, `Configured` after command `0x06`; no other operation and no other position changes it. -/
def csAfter (op : OpLatch) (upc : Nat) (cs : CtrlState) : CtrlState :=
  if op.instr = .init then
    if upc = initForcing.length then .fourBitMode
    else if upc = (initForcing ++ initConfigure).length then .configured
    else cs
  else cs

/-- The fault a request for `INIT` raises in state `cs`, if any (R255 step 4, R263). -/
def initFault (cs : CtrlState) : Option FaultCode := if cs = .unknown then none else some .reinit

/-- The fault a request for another bus operation raises in state `cs`, if any (R255 step 5, R263). -/
def busOpFault (cs : CtrlState) : Option FaultCode := if cs = .configured then none else some .notConfigured

end Sys2Proof.Machine
end

