-- ==== Sys2Proof/Machine/Ops.lean ====
section
/-! DEFINITION. The named operations over the state: driving a line, a delay and its return, running micro-operations
one after another, accepting and answering a request, and fault entry (60_exceptions.md R256). There is no return from
a fault (R257), so no operation for one. -/

namespace Sys2Proof.Machine

/-- The outcome type of this machine. -/
abbrev Result := Host.Outcome State Fault Refusal

/-- Go on with `f` from the next state; a stop stays a stop. -/
def andThen (r : Result) (f : State → Result) : Result :=
  match r with
  | .next s => f s
  | .fault x => .fault x
  | .refused x => .refused x

/-! ## Lines -/

/-- A driven level as a latch holds it. -/
def latchOf : Level → Latch
  | .h => .h
  | .l => .l

/-- `L[l]` (R15). -/
def Lines.get (L : Lines) : Line → Latch
  | .d0 => L.d0
  | .d1 => L.d1
  | .d2 => L.d2
  | .d3 => L.d3
  | .rs => L.rs
  | .e => L.e
  | .bl => L.bl

/-- `L[l] <- v`: the multiplexer routes to exactly one latch (R15, R100). -/
def Lines.put (L : Lines) : Line → Level → Lines
  | .d0, v => { L with d0 := latchOf v }
  | .d1, v => { L with d1 := latchOf v }
  | .d2, v => { L with d2 := latchOf v }
  | .d3, v => { L with d3 := latchOf v }
  | .rs, v => { L with rs := latchOf v }
  | .e, v => { L with e := latchOf v }
  | .bl, v => { L with bl := latchOf v }

/-! ## Micro-operations -/

/-- `emit Set(l, v)` (R16, R131): the event is appended and the latch written, whatever it held; no time passes. -/
def State.emitSet (s : State) (l : Line) (v : Level) : State :=
  { s with lines := s.lines.put l v, trace := s.trace ++ [.set l v] }

/-- The first half of `emit Delay(n)` (R16, R132): the event is appended and `n` handed to the timing collaborator. -/
def State.emitDelay (s : State) (ms : BitVec 7) : State :=
  { s with trace := s.trace ++ [.delay ms], pending := some ⟨ms.setWidth 16, .sequencer⟩ }

/-- The collaborator will stop returning, now or later (R272). -/
def Timer.stalls (t : Timer) : Bool := t.hangsAt.isSome

/-- It returns from no delay any more (R272). -/
def Timer.hung (t : Timer) : Bool := t.hangsAt.any fun n => decide (n ≤ t.answered)

/-- The timing collaborator's next answer: how late it returns, a draw and never early (R132, R270), and what it has
answered from then on; none when it never returns (R272). -/
def Timer.answer (t : Timer) : Option (Rat × Timer) :=
  if t.hung then none else some (max (Config.lateness t.answered) 0, { t with answered := t.answered + 1 })

/-- The delay `n` returns `late` milliseconds after the bound: `now <- now + d` with `d = n + late >= n` (R132). -/
def State.delayReturned (s : State) (ms : BitVec 16) (late : Rat) (t : Timer) : State :=
  { s with now := s.now + ((ms.toNat : Rat) + late), timer := t, pending := none }

/-- Wait out the delay `n` handed to the timing collaborator; none when it never returns. -/
def State.awaitDelay (s : State) (ms : BitVec 16) : Option State :=
  s.timer.answer.map fun a => s.delayReturned ms a.1 a.2

/-- Perform `SET l, v` (R131), refusing the reserved one (R103). -/
def performSet (l : Line) (v : Level) (s : State) : Result :=
  if (MicroOp.set l v).wellFormed then .next (s.emitSet l v) else .refused .reservedMicroOp

/-- Perform `DELAY n` up to the point where it waits (R132), refusing the reserved one (R103). -/
def performDelay (ms : BitVec 7) (s : State) : Result :=
  if (MicroOp.delay ms).wellFormed then .next (s.emitDelay ms) else .refused .reservedMicroOp

/-- Perform micro-operations one after another, waiting out each delay before the next (R16: "do not proceed until it
returns"; R78). A delay that never returns ends it there, with the delay pending (R272). -/
def runMicroOps : List MicroOp → State → Result
  | [], s => .next s
  | .set l v :: us, s => andThen (performSet l v s) (runMicroOps us)
  | .delay ms :: us, s =>
    andThen (performDelay ms s) fun t =>
      match t.awaitDelay (ms.setWidth 16) with
      | some t' => runMicroOps us t'
      | none => .next t

/-! ## Requests -/

/-- The response to a request (R113). -/
def State.respond (s : State) (r : Response) : State := { s with resp := some r }

/-- The operation in progress is complete: `busy <- 0` and `done` (R41, R130). -/
def State.complete (s : State) : State := ({ s with busy := false }).respond ⟨none, none⟩

/-- Latch an operation and its text (R51), `upc <- 0`, `busy <- 1`, and withdraw the last response (R130). -/
def State.begin (s : State) (i : Instr) (text : List Byte) : State :=
  { s with op := ⟨i, text⟩, upc := 0, busy := true, resp := none }

/-- Accept an operation (R130); one with an empty micro-program completes at once with no event. -/
def State.accept (s : State) (i : Instr) (text : List Byte) : State :=
  if uprog ⟨i, text⟩ = [] then (s.begin i text).complete else s.begin i text

/-- FAULT ENTRY, `raise Fault(code)` (R256): the register keeps its first code, the response carries this one, and
nothing else changes. -/
def State.raiseFault (s : State) (c : FaultCode) : State :=
  ({ s with fault := some (s.fault.getD c) }).respond ⟨some c, none⟩

/-- The checks R255 makes on a bus operation after decoding, in its order: a faulted block refuses and repeats its
code (R258); then the operation's own fault; then it is accepted, by `go`. While `busy = 1` there is no request
(R139). -/
def busRequest (own : Option FaultCode) (go : State → State) (s : State) : Result :=
  if s.busy then .refused .requestWhileBusy
  else
    match s.fault with
    | some c => .next (s.respond ⟨some c, none⟩)
    | none =>
      match own with
      | some c => .next (s.raiseFault c)
      | none => .next (go s)

/-! ## The sequencer -/

/-- A micro-operation has completed: `upc <- upc + 1` (R41), `cs` as R37 says. -/
def State.advance (s : State) : State :=
  { s with upc := s.upc + 1, cs := csAfter s.op (s.upc + 1) s.cs }

/-- `advance`, and at the end of the micro-program the operation is complete (R41, R130). -/
def State.retire (s : State) : State :=
  if s.upc + 1 = (uprog s.op).length then s.advance.complete else s.advance

end Sys2Proof.Machine
end

