-- ==== Sys2Proof/Machine/CommandData.lean ====
section
/-! DEFINITION. `COMMAND`, `WRITEDATA`, `CLEAR` (42_command_data.md R180 to R185) and the bus patterns of one byte
they send (30_encoding.md R105, R106). -/

namespace Sys2Proof.Machine

/-- `COMMAND b` (R180): legal only when `cs = Configured` (R185). -/
def execCommand (b : Byte) (s : State) : Result := busRequest (busOpFault s.cs) (fun s => s.accept (.command b) []) s

/-- `WRITEDATA b` (R181). -/
def execWriteData (b : Byte) (s : State) : Result :=
  busRequest (busOpFault s.cs) (fun s => s.accept (.writeData b) []) s

/-- `CLEAR` (R182): its micro-program is that of `COMMAND 0x01`. -/
def execClear (s : State) : Result := busRequest (busOpFault s.cs) (fun s => s.accept .clear []) s

/-- `CMD_CLEAR` (R106, R183): `call COMMAND(0x01)`, inline, with the settle delay. -/
def execCmdClear (s : State) : Result := runMicroOps (commandProgram 0x01) s

/-- `DATA_BYTE d` (R105, R181): `call WRITEDATA(d)`, inline. -/
def execDataByte (d : Byte) (s : State) : Result := runMicroOps (writeDataProgram d) s

end Sys2Proof.Machine
end

