-- ==== Sys2Proof/Machine/Handshake.lean ====
section
/-! DEFINITION. `INIT` (41_init.md R160, R161) and the bus patterns it alone sends (30_encoding.md R106). -/

namespace Sys2Proof.Machine

/-- `INIT` (R160): legal only when `cs = Unknown` (R161); acceptance sets `cs <- ForcingEightBit` before the first
event (R37), and the sequencer runs `initProgram` from there (assumption log 8). -/
def execInit (s : State) : Result :=
  busRequest (initFault s.cs) (fun s => ({ s with cs := .forcingEightBit }).accept .init []) s

/-- `NIB_WAKE` (R106): the raw nibble `0x3`; `RS` is not touched (R137). -/
def execNibWake (s : State) : Result := runMicroOps (latchProgram 0x3) s

/-- `NIB_4BIT` (R106): the raw nibble `0x2`. -/
def execNib4Bit (s : State) : Result := runMicroOps (latchProgram 0x2) s

/-- `CMD_FUNCTION_SET` (R106): `call COMMAND(0x28)`, inline, with no legality check (R160, R185). -/
def execCmdFunctionSet (s : State) : Result := runMicroOps (commandProgram 0x28) s

/-- `CMD_DISPLAY_CTRL` (R106): `call COMMAND(0x0C)`, inline. -/
def execCmdDisplayCtrl (s : State) : Result := runMicroOps (commandProgram 0x0C) s

/-- `CMD_ENTRY_MODE` (R106): `call COMMAND(0x06)`, inline. -/
def execCmdEntryMode (s : State) : Result := runMicroOps (commandProgram 0x06) s

end Sys2Proof.Machine
end

