-- ==== Sys2Proof/Machine/Illegal.lean ====
section
/-! DEFINITION. A request word that does not decode (30_encoding.md R99, 60_exceptions.md R251). -/

namespace Sys2Proof.Machine

/-- An illegal word raises `F_ILLEGAL_REQ`, in a faulted block too: decoding comes first (R251, R255 step 1). -/
def execIllegal (_w : RequestWord) (s : State) : Result :=
  if s.busy then .refused .requestWhileBusy else .next (s.raiseFault .illegalReq)

end Sys2Proof.Machine
end

