-- ==== Sys2Proof/Machine/Numerics.lean ====
section
/-! DEFINITION. The linearizer's formula over a numerics record, which records the spec admits, and the record of this
block (44_linearizer.md R220 to R231). -/

namespace Sys2Proof.Machine

/-! ## The formula -/

/-- `R_FIXED = 10000` ohms (R9, R222). -/
def rFixed : Rat := 10000

/-- `KELVIN_OFFSET = 273.15` (R9, R222). -/
def kelvinOffset : Rat := 27315 / 100

/-- `r` of R223: the thermistor's resistance, the product first, then the quotient, `4095 - code` an integer
subtraction (R220, R224). -/
def resistance (n : Num) (code : SampleCode) : Temp :=
  n.fdiv (n.fmul (.finite rFixed) (.finite (n.ofInt code))) (.finite (n.ofInt (4095 - code)))

/-- `lnR` of R223. -/
def logResistance (n : Num) (code : SampleCode) : Temp := n.ln (resistance n code)

/-- `invT` of R223 from `lnR`: `(A + B·lnR) + C·lnR³` (R220, R224). -/
def inverseTemp (n : Num) (lnR : Temp) : Temp :=
  n.fadd (n.fadd (.finite n.shA) (n.fmul (.finite n.shB) lnR)) (n.fmul (.finite n.shC) (n.cube lnR))

/-- The value `CONVERT` returns (R220): `+inf` for the open-circuit code, before any floating operation (R221), else
the formula, for code 0 too (R226). -/
def convertWith (n : Num) (code : SampleCode) : Temp :=
  if code = 4095 then .posInf
  else n.fsub (n.fdiv (.finite 1) (inverseTemp n (logResistance n code))) (.finite kelvinOffset)

/-! ## Admissible records -/

/-- `1 <= code <= 4094`, the codes the properties of R229 to R231 speak of. -/
def sensing (code : SampleCode) : Prop := 1 ≤ code.toNat ∧ code.toNat ≤ 4094

/-- The value is finite, not zero and not subnormal (R231): the rational it stands for has at least the least normal
magnitude. -/
def normalValue (n : Num) (t : Temp) (x : Rat) : Prop := t.value? = some x ∧ n.minNormal ≤ |x|

/-- What the spec requires of a record (R10): R229's two constraints, R230, and what R231 says of the three
intermediate quantities. "Of the order of 10^-3" is read as within a factor of ten (assumption log 13). -/
structure Admissible (n : Num) : Prop where
  /-- `minNormal` is a positive value -/
  minNormal_pos : 0 < n.minNormal
  /-- R231: `r >= 2.44` -/
  resistance_normal : ∀ code, sensing code → ∃ r, normalValue n (resistance n code) r ∧ 244 / 100 ≤ r
  /-- R231: `|lnR| <= 17.6` -/
  logResistance_normal : ∀ code, sensing code → ∃ x, normalValue n (logResistance n code) x ∧ |x| ≤ 176 / 10
  /-- R229, R231: `invT` "must be neither zero, nor infinite, nor NaN", and is of the order of `10^-3` -/
  inverseTemp_normal : ∀ code, sensing code →
    ∃ y, normalValue n (inverseTemp n (logResistance n code)) y ∧ 1 / 10000 ≤ y ∧ y ≤ 1 / 100
  /-- R229: the polynomial "must have no root for `x` in `[ln(10000/4094), ln(40 940 000)]`" -/
  no_root : ∀ x : ℝ, Real.log (10000 / 4094) ≤ x → x ≤ Real.log 40940000 →
    (n.shA : ℝ) + (n.shB : ℝ) * x + (n.shC : ℝ) * x ^ 3 ≠ 0
  /-- R229: finite -/
  finite : ∀ code, sensing code → (convertWith n code).isFinite = true
  /-- R230: strictly decreasing -/
  decreasing : ∀ a b, sensing a → sensing b → a.toNat < b.toNat →
    (convertWith n b).below (convertWith n a) = true

/-! ## That some record is admissible -/

/-- An operation on rationals, carried to temperatures. -/
def liftRat (f : Rat → Rat → Rat) (a b : Temp) : Temp :=
  match a.value?, b.value? with
  | some x, some y => .finite (f x y)
  | _, _ => .nan

/-- A record with exact rational arithmetic and a rising function in the place of the logarithm. It is here only to
show that admissible records exist: no meaning uses it, and nothing says that the block's record is this one. -/
def exactNum : Num where
  ofInt c := c.toNat
  fmul := liftRat (· * ·)
  fdiv := liftRat (· / ·)
  fadd := liftRat (· + ·)
  fsub := liftRat (· - ·)
  ln t := liftRat (fun x _ => x / (x + 1)) t t
  cube t := liftRat (fun x _ => x ^ 3) t t
  shA := 1 / 1000
  shB := 1 / 1000
  shC := 0
  minNormal := 1 / 10000

/-- The resistance of a code over the rationals (R223). -/
def exactResistance (code : SampleCode) : Rat := 10000 * (code.toNat : Rat) / ((4095 - code).toNat : Rat)

theorem exactResistance_eq {code : SampleCode} (h : sensing code) :
    exactResistance code = 10000 * (code.toNat : Rat) / (4095 - (code.toNat : Rat)) := by
  obtain ⟨-, h⟩ := h
  have h' : (4095 - code).toNat = 4095 - code.toNat := by bv_omega
  rw [exactResistance, h', Nat.cast_sub (by omega)]
  norm_num

theorem exactResistance_ge {code : SampleCode} (h : sensing code) : 244 / 100 ≤ exactResistance code := by
  have h1 : (1 : Rat) ≤ code.toNat := by exact_mod_cast h.1
  have h2 : (code.toNat : Rat) ≤ 4094 := by exact_mod_cast h.2
  rw [exactResistance_eq h, le_div_iff₀ (by linarith)]
  linarith

theorem exactResistance_lt {a b : SampleCode} (ha : sensing a) (hb : sensing b) (h : a.toNat < b.toNat) :
    exactResistance a < exactResistance b := by
  have h1 : (a.toNat : Rat) < b.toNat := by exact_mod_cast h
  have h2 : (b.toNat : Rat) ≤ 4094 := by exact_mod_cast hb.2
  rw [exactResistance_eq ha, exactResistance_eq hb, div_lt_div_iff₀ (by linarith) (by linarith)]
  nlinarith

theorem exactNum_resistance (code : SampleCode) : resistance exactNum code = .finite (exactResistance code) := rfl

theorem exactNum_logResistance (code : SampleCode) :
    logResistance exactNum code = .finite (exactResistance code / (exactResistance code + 1)) := rfl

theorem exactNum_inverseTemp (code : SampleCode) :
    inverseTemp exactNum (logResistance exactNum code) =
      .finite (1 / 1000 + 1 / 1000 * (exactResistance code / (exactResistance code + 1)) +
        0 * (exactResistance code / (exactResistance code + 1)) ^ 3) := rfl

theorem exactNum_convert {code : SampleCode} (h : sensing code) :
    convertWith exactNum code =
      .finite (1 / (1 / 1000 + 1 / 1000 * (exactResistance code / (exactResistance code + 1)) +
        0 * (exactResistance code / (exactResistance code + 1)) ^ 3) - 27315 / 100) := by
  have hne : code ≠ 4095 := by
    rintro rfl
    exact absurd h.2 (by decide)
  rw [convertWith, if_neg hne]
  rfl

/-- The record's `lnR` lies strictly between 0.7 and 1. -/
theorem exactLog_bounds {code : SampleCode} (h : sensing code) :
    7 / 10 ≤ exactResistance code / (exactResistance code + 1) ∧
      exactResistance code / (exactResistance code + 1) < 1 := by
  have hr := exactResistance_ge h
  constructor
  · rw [le_div_iff₀ (by linarith)]
    linarith
  · rw [div_lt_one (by linarith)]
    linarith

theorem exactLog_lt {a b : SampleCode} (ha : sensing a) (hb : sensing b) (h : a.toNat < b.toNat) :
    exactResistance a / (exactResistance a + 1) < exactResistance b / (exactResistance b + 1) := by
  have h1 := exactResistance_ge ha
  have h2 := exactResistance_lt ha hb h
  rw [div_lt_div_iff₀ (by linarith) (by linarith)]
  linarith

theorem exactNum_admissible : Admissible exactNum where
  minNormal_pos := by norm_num [exactNum]
  resistance_normal code h := by
    have hr := exactResistance_ge h
    refine ⟨_, ⟨congrArg Temp.value? (exactNum_resistance code), ?_⟩, hr⟩
    rw [abs_of_pos (by linarith)]
    exact le_trans (by norm_num [exactNum]) hr
  logResistance_normal code h := by
    obtain ⟨h1, h2⟩ := exactLog_bounds h
    refine ⟨_, ⟨congrArg Temp.value? (exactNum_logResistance code), ?_⟩, ?_⟩ <;> rw [abs_of_pos (by linarith)]
    · exact le_trans (by norm_num [exactNum]) h1
    · linarith
  inverseTemp_normal code h := by
    obtain ⟨h1, h2⟩ := exactLog_bounds h
    refine ⟨_, ⟨congrArg Temp.value? (exactNum_inverseTemp code), ?_⟩, ?_, ?_⟩
    · rw [abs_of_pos (by linarith)]
      exact le_trans (by norm_num [exactNum] : exactNum.minNormal ≤ 1 / 1000) (by linarith)
    · linarith
    · linarith
  no_root x hx _ := by
    have h0 : 0 < x := lt_of_lt_of_le (Real.log_pos (by norm_num)) hx
    norm_num [exactNum]
    positivity
  finite code h := by
    rw [exactNum_convert h]
    rfl
  decreasing a b ha hb h := by
    obtain ⟨h1, h2⟩ := exactLog_bounds ha
    have h3 := exactLog_lt ha hb h
    rw [exactNum_convert ha, exactNum_convert hb]
    simp only [Temp.below, Temp.value?, decide_eq_true_eq]
    refine sub_lt_sub_right (one_div_lt_one_div_of_lt ?_ ?_) _ <;> linarith

/-! ## The numerics of this block -/

/-- An admissible record. -/
structure AdmissibleNum where
  num : Num := exactNum
  admissible : Admissible num := by exact exactNum_admissible
  deriving Inhabited

end Sys2Proof.Machine

/-- The record a block is built with: any admissible one ("A `NUM` instance for which this fails is not an admissible
configuration", R229). Free: a constant with no body (assumption log 13). -/
opaque Sys2Proof.Config.numerics : Sys2Proof.Machine.AdmissibleNum

namespace Sys2Proof.Machine

/-- The numerics of this block. -/
def num : Num := Config.numerics.num

theorem num_admissible : Admissible num := Config.numerics.admissible

end Sys2Proof.Machine
end

