-- ==== Sys2Proof/Machine/Linearizer.lean ====
section
/-! DEFINITION. `CONVERT` (44_linearizer.md): the formula of Machine/Numerics.lean with the numerics of this block. -/

namespace Sys2Proof.Machine

/-- The value `CONVERT code` returns on this block. -/
def convertValue (code : SampleCode) : Temp := convertWith num code

/-- `CONVERT code` (R220): the result is written to `temp` and returned in the response, whose fault code is none on a
faulted block too (assumption log 19); no event, no fault, no other state, in every state (R227). -/
def execConvert (code : SampleCode) (s : State) : Result :=
  .next (({ s with temp := some (convertValue code) }).respond ⟨none, some (convertValue code)⟩)

end Sys2Proof.Machine
end

