-- ==== Sys2Proof/Machine/MicroOps.lean ====
section
/-! DEFINITION. The micro-operations `SET` and `DELAY` and the micro-routines `LATCH` and `SENDBYTE`
(40_bus_primitives.md R131, R132, R134, R136). -/

namespace Sys2Proof.Machine

/-- `SET l, v` (R131). -/
def execSet (l : Line) (v : Level) (s : State) : Result := performSet l v s

/-- `DELAY n` (R132): the event, and `n` handed to the timing collaborator. Its return is the collaborator's step
(`State.collaborator`), as R13 and R272 say. -/
def execDelay (ms : BitVec 7) (s : State) : Result := performDelay ms s

/-- `LATCH n` (R134), "executes the micro-routine to completion" (R16; assumption log 9). -/
def execLatch (n : Nibble) (s : State) : Result := runMicroOps (latchProgram n) s

/-- `SENDBYTE b` (R136). -/
def execSendByte (b : Byte) (s : State) : Result := runMicroOps (sendByteProgram b) s

end Sys2Proof.Machine
end

