-- ==== Sys2Proof/Machine/Position.lean ====
section
/-! DEFINITION. `SETPOSITION`, `PRINT` (43_position_print.md R201, R202, R206) and the set-address bus patterns
(30_encoding.md R106). -/

namespace Sys2Proof.Machine

/-- `SETPOSITION row, col` (R201): an invalid row is accepted and does nothing (R205). -/
def execSetPosition (row col : Byte) (s : State) : Result :=
  busRequest (busOpFault s.cs) (fun s => s.accept (.setPosition row col) []) s

/-- `PRINT row, col, text` (R202), the text sampled from `TXT` at acceptance (R51, R82; assumption log 7). -/
def execPrint (row col len : Byte) (s : State) : Result :=
  busRequest (busOpFault s.cs) (fun s => s.accept (.print row col len) (printText s len)) s

/-- `CMD_ADDR_ROW0 c` (R106): `call COMMAND(0x80 + c)`, inline. -/
def execCmdAddrRow0 (c : Nibble) (s : State) : Result := runMicroOps (commandProgram (0x80 + c.setWidth 8)) s

/-- `CMD_ADDR_ROW1 c` (R106): `call COMMAND(0xC0 + c)`, inline. -/
def execCmdAddrRow1 (c : Nibble) (s : State) : Result := runMicroOps (commandProgram (0xC0 + c.setWidth 8)) s

end Sys2Proof.Machine
end

