-- ==== Sys2Proof/Machine/Dispatch.lean ====
section
/-! DEFINITION. One arm per constructor of `Instr`, each one call of its meaning. -/

namespace Sys2Proof.Machine

def exec (i : Instr) (s : State) : Host.Outcome State Fault Refusal :=
  match i with
  | .init => Sys2Proof.Machine.execInit s
  | .command b => Sys2Proof.Machine.execCommand b s
  | .writeData b => Sys2Proof.Machine.execWriteData b s
  | .setPosition row col => Sys2Proof.Machine.execSetPosition row col s
  | .print row col len => Sys2Proof.Machine.execPrint row col len s
  | .clear => Sys2Proof.Machine.execClear s
  | .convert code => Sys2Proof.Machine.execConvert code s
  | .illegal w => Sys2Proof.Machine.execIllegal w s
  | .set l v => Sys2Proof.Machine.execSet l v s
  | .delay ms => Sys2Proof.Machine.execDelay ms s
  | .latch n => Sys2Proof.Machine.execLatch n s
  | .sendByte b => Sys2Proof.Machine.execSendByte b s
  | .nibWake => Sys2Proof.Machine.execNibWake s
  | .nib4Bit => Sys2Proof.Machine.execNib4Bit s
  | .cmdFunctionSet => Sys2Proof.Machine.execCmdFunctionSet s
  | .cmdDisplayCtrl => Sys2Proof.Machine.execCmdDisplayCtrl s
  | .cmdClear => Sys2Proof.Machine.execCmdClear s
  | .cmdEntryMode => Sys2Proof.Machine.execCmdEntryMode s
  | .cmdAddrRow0 c => Sys2Proof.Machine.execCmdAddrRow0 c s
  | .cmdAddrRow1 c => Sys2Proof.Machine.execCmdAddrRow1 c s
  | .dataByte d => Sys2Proof.Machine.execDataByte d s

end Sys2Proof.Machine
end

