-- ==== Sys2Proof/Machine/Cycle.lean ====
section
/-! DEFINITION. What each agent does when it is its turn (00_scope.md R13): the reset input, the timing collaborator,
the sequencer, the host. At most one of the last three has an enabled step. -/

namespace Sys2Proof.Machine

/-- The reset input is asserted at this step. -/
def State.resetAsserted (s : State) : Bool := s.rst.headD false

/-- The reset input's next level. -/
def State.tick (s : State) : State := { s with rst := s.rst.tail }

/-- Reset (R300, R306): the state of R50, whatever was in progress; the surroundings go on (assumption log 22). A delay
that is pending is dropped, whoever handed it out: the sequencer's goes with the micro-program (R306); that the host's
own cadence wait ends too, and the host goes on with its next act, is the model's choice (assumption log 28). -/
def State.applyReset (s : State) : State :=
  { State.reset with host := s.host, timer := s.timer, rst := s.rst.tail }

/-- The timing collaborator's step (R13, R48, R272): the pending delay returns, which completes the sequencer's
micro-operation or frees the host; a stalled collaborator leaves everything as it is. -/
def State.collaborator (s : State) (p : PendingDelay) : State :=
  match s.awaitDelay p.ms with
  | none => s
  | some t =>
    match p.owner with
    | .sequencer => t.retire
    | .host => t

/-- The sequencer's step (R130): perform `uprog[upc]`; a `SET` completes at once, a `DELAY` when the collaborator
returns (R41). At the end of the micro-program the operation is complete. -/
def sequencerStep (s : State) : Result :=
  match (uprog s.op)[s.upc]? with
  | none => .next s.complete
  | some u => andThen (exec u.toInstr s) fun t => .next (if t.pending.isSome then t else t.retire)

/-- The host's step, only while `busy = 0` (R13, R63, R139, R282): present a request, write a byte of `TXT`, or begin
a wait; with nothing to do the block stays idle (R301). -/
def hostStep (s : State) : Result :=
  match s.host with
  | [] => .next s
  | .request w :: rest => exec (decodeRequest w) { s with host := rest }
  | .writeTxt a b :: rest => .next { s with host := rest, txt := Memory.write s.txt a.toNat b }
  | .wait ms :: rest => .next { s with host := rest, pending := some ⟨ms, .host⟩ }

/-- The agent whose turn it is, the reset input aside. -/
def agentStep (s : State) : Result :=
  match s.pending with
  | some p => .next (s.collaborator p)
  | none => if s.busy then sequencerStep s else hostStep s

/-- One step of the machine and its surroundings. -/
def cycle (s : State) : Result :=
  if s.resetAsserted then .next s.applyReset else agentStep s.tick

/-- Place a request word as the host's next act (R130, R285). -/
def State.placeRequest (s : State) (w : RequestWord) : State :=
  { s with host := .request w :: s.host, busy := false, pending := none, rst := [] }

/-- Place an instruction of another space as the operation the sequencer begins next (R111, R133). -/
def State.placeSequenced (s : State) (i : Instr) : State :=
  { s with op := ⟨i, []⟩, upc := 0, busy := true, pending := none, rst := [] }

/-- Place a word of the opcode table (assumption log 20): a request word with the host, any other word with the
sequencer; a word the decoder refuses is placed nowhere. -/
def State.placeWord (s : State) (nbits w : Nat) : State :=
  if nbits = 32 then s.placeRequest (BitVec.ofNat 32 w)
  else
    match decodeTableWord nbits w with
    | some i => s.placeSequenced i
    | none => s

end Sys2Proof.Machine
end

