-- ==== Sys2Proof/Machine/Acquisition.lean ====
section
/-! DEFINITION. The host agent's program: start-up, then its cycle over and over (60_exceptions.md R277 to R281). The
acquisition loop "is not part of the block" (R7): this file only produces what it asks of the block, for the state's
`host` field. -/

namespace Sys2Proof.Machine

/-- The ASCII code of a decimal digit. -/
def digitByte (d : Nat) : Byte := BitVec.ofNat 8 (0x30 + d)

/-- A number in decimal digits, the most significant first. -/
def decimal (k : Nat) : List Byte := (Nat.toDigits 10 k).map fun c => BitVec.ofNat 8 c.toNat

/-- The magnitude of a finite temperature in tenths of a degree, by the host's rounding rule `HOST_ROUND`, which is open
(R279): a magnitude with more than one decimal goes to one of its two neighbours. -/
def tenths (t : Temp) (x : Rat) : Nat :=
  let k := (10 * |x|).floor.toNat
  if (k : Rat) = 10 * |x| then k else if Config.hostRoundUp t then k + 1 else k

/-- The decimal point and the one digit after it (R279). -/
def onePlace (k : Nat) : List Byte := [0x2E, digitByte (k % 10)]

/-- A finite temperature with one digit after the decimal point (R279). A value with two integer digits is written as
it is (`24.7`); another nonnegative one may be padded; a negative one has an open rendering before the point. -/
def renderFinite (t : Temp) (x : Rat) (negative : Bool) : List Byte :=
  let k := tenths t x
  if negative then Config.hostBefore t ++ onePlace k ++ Config.hostAfter t
  else if (decimal (k / 10)).length = 2 then decimal (k / 10) ++ onePlace k
  else Config.hostBefore t ++ decimal (k / 10) ++ onePlace k ++ Config.hostAfter t

/-- The characters of a temperature: `inf` for `+inf` (R281), one decimal place for a finite value (R279); NaN and
`-inf` are open (R281). -/
def renderTemp : Temp → List Byte
  | .posInf => [0x69, 0x6E, 0x66]
  | .finite x => renderFinite (.finite x) x (decide (x < 0))
  | .negZero => renderFinite .negZero 0 true
  | .negInf => Config.hostNonFinite .negInf
  | .nan => Config.hostNonFinite .nan

/-- `format(n, t)` of R279: `T`, the digit of the label, `:`, the value. -/
def formatField (label : Nat) (t : Temp) : List Byte := [0x54, digitByte label, 0x3A] ++ renderTemp t

/-- Three fields "separated by single spaces" (R279); channel index `i` has label `i + 1` (R280). -/
def displayLine (first : Nat) (t0 t1 t2 : Temp) : List Byte :=
  formatField first t0 ++ [0x20] ++ formatField (first + 1) t1 ++ [0x20] ++ formatField (first + 2) t2

/-- The request word of an operation; the all-zero word for what has none. -/
def requestOf (i : Instr) : HostAct :=
  match encode i with
  | .request w => .request w
  | .uops _ => .request 0
  | .busNibble _ => .request 0
  | .busByte _ _ => .request 0

/-- Writing a text into `TXT[0]`, `TXT[1]`, … (R61). Addresses are taken modulo 256: what the host does with a line
that `TXT` cannot hold is the model's choice (assumption log 29). -/
def writeText (text : List Byte) : List HostAct :=
  text.zipIdx.map fun p => .writeTxt (BitVec.ofNat 8 p.2) p.1

/-- `PRINT row, 0, text` as the host issues it: `TXT` first, then the request (R278, R282; start column 0, D20). The
length is taken modulo 256, the field being eight bits (R95): the model's choice for a longer line (assumption log 29). -/
def printActs (row : Byte) (text : List Byte) : List HostAct :=
  writeText text ++ [requestOf (.print row 0 (BitVec.ofNat 8 text.length))]

/-- One cycle of the host on six sample codes (R278): six conversions, `CLEAR`, two lines, the 1-second cadence. -/
def cycleActs (c0 c1 c2 c3 c4 c5 : SampleCode) : List HostAct :=
  ([c0, c1, c2, c3, c4, c5].map fun c => requestOf (.convert c)) ++ [requestOf .clear] ++
    printActs 0 (displayLine 1 (convertValue c0) (convertValue c1) (convertValue c2)) ++
    printActs 1 (displayLine 4 (convertValue c3) (convertValue c4) (convertValue c5)) ++ [.wait 1000]

/-- The host's acts for one cycle, from what the six channel reads gave: "any failure reading a channel halts the
system" (R262), so a failed read leaves it with nothing more to do. -/
def hostCycle : List (Option SampleCode) → List HostAct
  | [some c0, some c1, some c2, some c3, some c4, some c5] => cycleActs c0 c1 c2 c3 c4 c5
  | _ => []

/-- The host's loop over the channel reads of its cycles (R278, "repeat"): it goes on until a read fails, which halts the
host for good (R262). The real loop never returns (R277); any number of its cycles is such a list, and R283 lets a test
stop it there. -/
def hostLoop : List (List (Option SampleCode)) → List HostAct
  | [] => []
  | reads :: rest =>
    match hostCycle reads with
    | [] => []
    | acts => acts ++ hostLoop rest

/-- The host's whole program (R277): "`INIT` exactly once, then the loop". -/
def hostProgram (readings : List (List (Option SampleCode))) : List HostAct :=
  requestOf .init :: hostLoop readings

end Sys2Proof.Machine
end

