-- ==== Sys2Proof/Machine/Binary32.lean ====
section
/-! DEFINITION. The default instance of the numerics record (44_linearizer.md R222): IEEE 754 binary32, round to
nearest even. The step does not use it (its numerics are free, `num`): it shows what a record is and carries the
spec's exactness facts (R225). The logarithm has "no stated accuracy" and is an argument. -/

namespace Sys2Proof.Machine

/-- `2^e` for any integer `e`. -/
def pow2 (e : Int) : Rat := if 0 ≤ e then ((2 ^ e.toNat : Nat) : Rat) else 1 / ((2 ^ (-e).toNat : Nat) : Rat)

/-- The exponent `e` with `2^e <= a < 2^(e+1)`, for `a > 0`. -/
def floorLog2 (a : Rat) : Int :=
  let e : Int := (a.num.natAbs.log2 : Int) - (a.den.log2 : Int)
  if pow2 e ≤ a then e else e - 1

/-- The nearest integer to a nonnegative rational, ties to even. -/
def roundEven (a : Rat) : Nat :=
  let k := a.floor.toNat
  let d := a - (k : Rat)
  if d < 1 / 2 then k else if 1 / 2 < d then k + 1 else if k % 2 = 0 then k else k + 1

/-- A zero with a sign. -/
def signedZero (neg : Bool) : Temp := if neg then .negZero else .finite 0

/-- An infinity with a sign. -/
def signedInf (neg : Bool) : Temp := if neg then .negInf else .posInf

/-- The magnitude of binary32 nearest to `a > 0`: 24 significant bits down to exponent -126, subnormal below. -/
def roundMag32 (a : Rat) : Rat :=
  let ulp := pow2 (max (floorLog2 a) (-126) - 23)
  (roundEven (a / ulp) : Rat) * ulp

/-- Round an exact result to binary32; `neg` is the sign of a zero result. -/
def round32 (neg : Bool) (q : Rat) : Temp :=
  if q = 0 then signedZero neg
  else
    let m := roundMag32 (if q < 0 then -q else q)
    if m = 0 then signedZero (decide (q < 0))
    else if pow2 128 ≤ m then signedInf (decide (q < 0))
    else .finite (if q < 0 then -m else m)

/-- The sign of a value; NaN has none that matters. -/
def signOf : Temp → Bool
  | .finite x => decide (x < 0)
  | .negZero => true
  | .posInf => false
  | .negInf => true
  | .nan => false

/-- The class of a value: finite with its rational, infinite, or NaN. -/
inductive TempClass where
  | fin (x : Rat)
  | inf
  | nan
  deriving DecidableEq, Repr

/-- The class of a value. -/
def classOf : Temp → TempClass
  | .finite x => .fin x
  | .negZero => .fin 0
  | .posInf => .inf
  | .negInf => .inf
  | .nan => .nan

/-- IEEE 754 negation. -/
def neg32 : Temp → Temp
  | .finite x => if x = 0 then .negZero else .finite (-x)
  | .negZero => .finite 0
  | .posInf => .negInf
  | .negInf => .posInf
  | .nan => .nan

/-- IEEE 754 multiplication in binary32. -/
def mul32 (a b : Temp) : Temp :=
  let s := signOf a != signOf b
  match classOf a, classOf b with
  | .nan, _ => .nan
  | _, .nan => .nan
  | .inf, .inf => signedInf s
  | .inf, .fin y => if y = 0 then .nan else signedInf s
  | .fin x, .inf => if x = 0 then .nan else signedInf s
  | .fin x, .fin y => round32 s (x * y)

/-- IEEE 754 division in binary32. -/
def div32 (a b : Temp) : Temp :=
  let s := signOf a != signOf b
  match classOf a, classOf b with
  | .nan, _ => .nan
  | _, .nan => .nan
  | .inf, .inf => .nan
  | .inf, .fin _ => signedInf s
  | .fin _, .inf => signedZero s
  | .fin x, .fin y => if y = 0 then (if x = 0 then .nan else signedInf s) else round32 s (x / y)

/-- IEEE 754 addition in binary32; an exact zero sum of opposite signs is `+0`. -/
def add32 (a b : Temp) : Temp :=
  match classOf a, classOf b with
  | .nan, _ => .nan
  | _, .nan => .nan
  | .inf, .inf => if signOf a = signOf b then a else .nan
  | .inf, .fin _ => a
  | .fin _, .inf => b
  | .fin x, .fin y => round32 (signOf a && signOf b) (x + y)

/-- IEEE 754 subtraction in binary32. -/
def sub32 (a b : Temp) : Temp := add32 a (neg32 b)

/-- The binary32 value of a constant (no constant of the spec overflows). -/
def lit32 (x : Rat) : Rat := ((round32 false x).value?).getD 0

/-- A value as a binary32 operation takes it: the nearest binary32 value, itself for a value of the format. Only the
constant `273.15` is ever changed by it (R225; assumption log 14). -/
def operand32 : Temp → Temp
  | .finite x => round32 false x
  | .negZero => .negZero
  | .posInf => .posInf
  | .negInf => .negInf
  | .nan => .nan

/-- The default instance of `NUM` (R222), with its logarithm and the calibration constants as arguments. -/
def binary32 (ln : Temp → Temp) (a b c : Rat) : Num where
  ofInt n := n.toNat
  fmul := mul32
  fdiv := div32
  fadd := add32
  fsub x y := sub32 x (operand32 y)
  ln := ln
  cube x := mul32 (mul32 x x) x
  shA := lit32 a
  shB := lit32 b
  shC := lit32 c
  minNormal := pow2 (-126)

end Sys2Proof.Machine
end

