-- ==== Sys2Proof/Machine/Observer.lean ====
section
/-! DEFINITION. Reading the bus back out of a trace (40_bus_primitives.md R141). "The observer is not part of the
block": it is here so that what was sent can be spoken of. -/

namespace Sys2Proof.Machine

/-- The line levels after a list of events (R32: only `SET` writes a line). -/
def Lines.after : Lines → List MicroOp → Lines
  | L, [] => L
  | L, .set l v :: es => Lines.after (L.put l v) es
  | L, .delay _ :: es => Lines.after L es

/-- `n[i] = 1` iff `L[Di] = H` (R141). -/
def busNibble (L : Lines) : Nibble :=
  (BitVec.ofBool (L.d3 == .h) ++ BitVec.ofBool (L.d2 == .h) : BitVec 2) ++
    (BitVec.ofBool (L.d1 == .h) ++ BitVec.ofBool (L.d0 == .h) : BitVec 2)

/-- One latched nibble `(rs, n)` (R141). -/
structure Latched where
  rs : Latch
  n : Nibble
  deriving DecidableEq, Repr

/-- The bus observer (R141): scan keeping the levels, and record a nibble at every `Set(E, L)` that follows a
`Set(E, H)`; `armed` says that one has. -/
def observe : Lines → Bool → List MicroOp → List Latched
  | _, _, [] => []
  | L, armed, .set .e .l :: es =>
    let L' := L.put .e .l
    if armed then ⟨L'.rs, busNibble L'⟩ :: observe L' false es else observe L' false es
  | L, _, .set .e .h :: es => observe (L.put .e .h) true es
  | L, armed, .set l v :: es => observe (L.put l v) armed es
  | L, armed, .delay _ :: es => observe L armed es

/-- The number of latch cycles in a micro-program: "the number of latched nibbles is the source's count of "latch
cycles"" (R141, R320). It does not depend on the levels before it. -/
def latchCycles (us : List MicroOp) : Nat := (observe .undriven false us).length

/-- What a pair of latched nibbles carries: a command byte when `RS` is low, a data byte when it is high (R141). -/
structure BusByte where
  rs : Latch
  byte : Byte
  deriving DecidableEq, Repr

/-- Pair latched nibbles two by two into bytes, high half first (R141). -/
def pairUp : List Latched → List BusByte
  | a :: b :: m => ⟨a.rs, a.n ++ b.n⟩ :: pairUp m
  | _ => []

/-- The bytes in a trace since reset: "from the fifth latched nibble after reset onward" (R141). -/
def bytesOfTrace (es : List MicroOp) : List BusByte := pairUp ((observe .undriven false es).drop 4)

end Sys2Proof.Machine
end

