-- ==== Sys2Proof/Safety.lean ====
section
/-! DEFINITION. The terms claims are made in: a good final state (70_reset_and_hazards.md R307), what a run reaches,
when the surroundings let the block go on, and the invariant of the machine. -/

namespace Sys2Proof.Machine

/-- A good final state of a finite program of operations (R307): the last operation's `done` has been signalled (its
response is there, R113; reset and acceptance withdraw it), `busy = 0`, no delay pending, no fault, and no operation
is left. -/
def State.goodFinal (s : State) : Bool :=
  s.host.isEmpty && s.resp.isSome && !s.busy && s.pending.isNone && s.fault.isNone

/-- Some number of steps leads from `s` to `t`. -/
def Reaches (s t : State) : Prop := ∃ k, Host.Core.run Sys2Proof.core k s = .next t

/-- The block is idle: no operation in progress and no delay pending. -/
def State.idle (s : State) : Prop := s.busy = false ∧ s.pending = none

/-- The block may accept a bus operation as far as `fault` is concerned. -/
def State.ready (s : State) : Prop := s.idle ∧ s.fault = none

/-- Nothing outside stops an operation: the reset input stays low, and the timing collaborator returns from every
delay (the assumption R272 names). -/
def State.undisturbed (s : State) : Prop := s.rst = [] ∧ s.timer.stalls = false

/-- The lines after a latch cycle of nibble `n` (R104, R134): bit `i` on line `Di`, 1 is `H` and 0 is `L`, the strobe
low, the others as they were. -/
def nibbleLines (L : Lines) (n : Nibble) : Lines :=
  { L with d0 := if n.getLsbD 0 then .h else .l, d1 := if n.getLsbD 1 then .h else .l,
           d2 := if n.getLsbD 2 then .h else .l, d3 := if n.getLsbD 3 then .h else .l, e := .l }

/-- The lines after a byte has been sent with the mode-select line at `rs` (R105): its low nibble is left on the
data lines. -/
def byteLines (L : Lines) (rs : Latch) (b : Byte) : Lines := { nibbleLines L (loNibble b) with rs := rs }

/-- `t` is what `s` becomes when an operation requested in it is done: `es` in the trace, `ms` milliseconds passed at
least, the lines at `L` and `cs` at `c`. The operand latches and `upc` have no meaning now (R40, R51), and everything
else is as it was: "After `done`, the state differs from the state at acceptance only in `L`, `cs` (for `INIT`),
`trace` and `now`" (R139). -/
def OpDone (s t : State) (c : CtrlState) (es : List MicroOp) (L : Lines) (ms : Nat) : Prop :=
  t = { s with lines := L, cs := c, trace := s.trace ++ es, now := t.now, timer := t.timer, op := t.op, upc := t.upc,
               resp := some ⟨none, none⟩ } ∧ s.now + (ms : Rat) ≤ t.now

/-- `t` is what `s` becomes when the micro-operations `es` have run to completion: the lines at `L`, `ms` milliseconds
passed at least, no delay pending, and everything else as it was. -/
def Ran (s t : State) (es : List MicroOp) (L : Lines) (ms : Nat) : Prop :=
  t = { s with lines := L, trace := s.trace ++ es, now := t.now, timer := t.timer, pending := none } ∧
    s.now + (ms : Rat) ≤ t.now

/-- The eight events of a latch cycle of nibble `n` (R134). -/
def latchEvents (n : Nibble) : List MicroOp :=
  [.set .d0 (if n.getLsbD 0 then .h else .l), .set .d1 (if n.getLsbD 1 then .h else .l),
   .set .d2 (if n.getLsbD 2 then .h else .l), .set .d3 (if n.getLsbD 3 then .h else .l),
   .set .e .h, .delay 1, .set .e .l, .delay 1]

/-- The events of a byte sent with the mode-select line at `rs`: high nibble first (R68, R105, R136). -/
def byteEvents (rs : Level) (b : Byte) : List MicroOp :=
  .set .rs rs :: latchEvents (hiNibble b) ++ latchEvents (loNibble b)

/-- The events of `COMMAND b` (R180). -/
def commandEvents (b : Byte) : List MicroOp := byteEvents .l b ++ if b = 0x01 then [.delay 2] else []

/-- The milliseconds `COMMAND b` takes at least (R180). -/
def commandMs (b : Byte) : Nat := if b = 0x01 then 6 else 4

/-- The events of `INIT` (R160). -/
def initEvents : List MicroOp :=
  [.set .rs .l, .delay 20] ++ latchEvents 0x3 ++ [.delay 5] ++ latchEvents 0x3 ++ [.delay 1] ++ latchEvents 0x3 ++
    latchEvents 0x2 ++ commandEvents 0x28 ++ commandEvents 0x0C ++ commandEvents 0x01 ++ commandEvents 0x06 ++
    if Config.hasBacklight then [.set .bl .h] else []

/-- What fault entry with code `c` makes of `s` (R256). -/
def faultEntered (s : State) (c : FaultCode) : State :=
  { s with fault := some (s.fault.getD c), resp := some ⟨some c, none⟩ }

/-- What accepting a bus operation with something to do makes of `s` (R130, R51). -/
def accepted (s : State) (i : Instr) (text : List Byte) : State :=
  { s with op := ⟨i, text⟩, upc := 0, busy := true, resp := none }

/-- Requests only: the operations the host can issue that the sequencer runs (R2, R130). -/
def isBusOperation : Instr → Bool
  | .init => true
  | .command _ => true
  | .writeData _ => true
  | .setPosition _ _ => true
  | .print _ _ _ => true
  | .clear => true
  | .convert _ => false
  | .illegal _ => false
  | .set _ _ => false
  | .delay _ => false
  | .latch _ => false
  | .sendByte _ => false
  | .nibWake => false
  | .nib4Bit => false
  | .cmdFunctionSet => false
  | .cmdDisplayCtrl => false
  | .cmdClear => false
  | .cmdEntryMode => false
  | .cmdAddrRow0 _ => false
  | .cmdAddrRow1 _ => false
  | .dataByte _ => false

/-- `cs` while `INIT` is at position `upc` (R37). -/
def initPhase (upc : Nat) : CtrlState :=
  if upc < initForcing.length then .forcingEightBit
  else if upc < (initForcing ++ initConfigure).length then .fourBitMode
  else .configured

/-- `TXT` has its canonical form. -/
def State.txtWf (s : State) : Prop := Memory.wf s.txt = true

/-- The lines are what the trace says (R32, R33): nothing but a recorded `SET` has changed one since reset. -/
def State.linesFollowTrace (s : State) : Prop := s.lines = Lines.undriven.after s.trace

/-- The sequencer is where R40, R41 and R48 allow it to be: a busy block runs a bus operation the host issued and is
inside its micro-program; its pending delay is the one at `upc`; an idle block waits for nothing but the host's own
wait. -/
def State.sequencerOk (s : State) : Prop :=
  (s.busy = true →
    isBusOperation s.op.instr = true ∧ s.op.text.length < 256 ∧ s.upc < (uprog s.op).length ∧
    (∀ p, s.pending = some p → p.owner = .sequencer ∧
      ∃ ms : BitVec 7, (uprog s.op)[s.upc]? = some (.delay ms) ∧ p.ms = ms.setWidth 16)) ∧
  (s.busy = false → ∀ p, s.pending = some p → p.owner = .host)

/-- `cs` is where R37 and R263 allow it to be: the middle values only inside `INIT`, and every other operation runs
with `cs = Configured`. -/
def State.csOk (s : State) : Prop :=
  (s.busy = true → s.cs = if s.op.instr = .init then initPhase s.upc else .configured) ∧
  (s.busy = false → s.cs = .unknown ∨ s.cs = .configured)

/-- A faulted block runs nothing (R258). -/
def State.faultHalts (s : State) : Prop := s.fault.isSome = true → s.busy = false

/-- Milliseconds asked of the collaborator and not yet waited out. -/
def State.pendingMs (s : State) : Nat :=
  match s.pending with
  | some p => if p.owner = .sequencer then p.ms.toNat else 0
  | none => 0

/-- Every delay of the trace has been waited out for at least what was asked (R46, R132, R270). -/
def State.timeOk (s : State) : Prop := (requestedMs s.trace : Rat) ≤ s.now + (s.pendingMs : Rat)

/-- The invariant of the machine. -/
structure State.Inv (s : State) : Prop where
  txtWf : s.txtWf
  linesFollowTrace : s.linesFollowTrace
  sequencerOk : s.sequencerOk
  csOk : s.csOk
  faultHalts : s.faultHalts
  timeOk : s.timeOk

end Sys2Proof.Machine
end

