-- ==== Sys2Proof/Certificates/Slice0/Obligations.lean ====
section
/-! DEFINITION. The statements for the provers, from the spec's rules. -/

open Sys2Proof Sys2Proof.Machine

/-! ## Encodings -/

/-- Decoding an encoded instruction gives it back, in every space and with every operand at every value its encoding
admits (R91 to R96, R101, R102, R104 to R106, R111). -/
def Obligations.DecodeEncodeRoundTrip : Prop :=
  ∀ i : Instr, i.wellFormed = true → decode (encode i) = some i

/-- Every request word has one meaning: encoding what it decodes to gives the word back, so no bit of it is dropped
and no two words mean the same (R98, "injective"). -/
def Obligations.EncodeOfDecodedRequestIsTheWord : Prop :=
  (∀ w : RequestWord, encode (decodeRequest w) = .request w) ∧
  (∀ w w' : RequestWord, decodeRequest w = decodeRequest w' → w = w')

/-- R99: a word is illegal when its `opc` is 0x0 or 0x8 to 0xF, or when any bit its format marks zero is 1; and an
illegal word raises `F_ILLEGAL_REQ` with no event and no other change. -/
def Obligations.IllegalWordsFault : Prop :=
  (∀ w : RequestWord, decodeRequest w = .illegal w ↔
    (w.extractLsb' 28 4 = 0x0 ∨ 0x8 ≤ w.extractLsb' 28 4 ∨
     (w.extractLsb' 28 4 = 0x1 ∧ w.extractLsb' 0 28 ≠ 0) ∨
     (w.extractLsb' 28 4 = 0x2 ∧ w.extractLsb' 8 20 ≠ 0) ∨
     (w.extractLsb' 28 4 = 0x3 ∧ w.extractLsb' 8 20 ≠ 0) ∨
     (w.extractLsb' 28 4 = 0x4 ∧ (w.extractLsb' 24 4 ≠ 0 ∨ w.extractLsb' 0 8 ≠ 0)) ∨
     (w.extractLsb' 28 4 = 0x5 ∧ w.extractLsb' 24 4 ≠ 0) ∨
     (w.extractLsb' 28 4 = 0x6 ∧ w.extractLsb' 0 28 ≠ 0) ∨
     (w.extractLsb' 28 4 = 0x7 ∧ w.extractLsb' 12 16 ≠ 0))) ∧
  (∀ (w : RequestWord) (s : State), s.busy = false →
    exec (.illegal w) s = .next (faultEntered s .illegalReq))

/-- Words the spec writes out, and what they stand for (R92 to R96, R101, R102, R106). -/
def Obligations.SpecWordsDecode : Prop :=
  decodeRequest 0x10000000 = .init ∧ decodeRequest 0x20000028 = .command 0x28 ∧
  decodeRequest 0x30000041 = .writeData 0x41 ∧ decodeRequest 0x40010500 = .setPosition 1 5 ∧
  decodeRequest 0x50001401 = .print 0 20 1 ∧ decodeRequest 0x60000000 = .clear ∧
  decodeRequest 0x70000FFF = .convert 4095 ∧ decodeRequest 0x20000128 = .illegal 0x20000128 ∧
  decode (.uops [0x51]) = some (.set .e .h) ∧ decode (.uops [0x94]) = some (.delay 20) ∧
  decode (.uops [0x01, 0x11, 0x20, 0x30, 0x51, 0x81, 0x50, 0x81]) = some (.latch 0x3) ∧
  decode (.busByte .l 0x28) = some .cmdFunctionSet ∧ decode (.busByte .l 0xC5) = some (.cmdAddrRow1 5)

/-- R103: the reserved micro-operation words are exactly those it lists, and executing one is refused (U12); the
backlight line's `SET` is one of them exactly on a block without that line, and drives it otherwise (R35). -/
def Obligations.ReservedMicroOpsRefused : Prop :=
  (∀ w : Byte, decodeMicroOp w = none ↔
    (w.getLsbD 7 = true ∧ w.extractLsb' 0 7 = 0) ∨
    (w.getLsbD 7 = false ∧ (w.extractLsb' 1 3 ≠ 0 ∨ w.extractLsb' 4 3 = 7 ∨
      (w.extractLsb' 4 3 = 6 ∧ Config.hasBacklight = false)))) ∧
  (∀ s : State, exec (.delay 0) s = .refused .reservedMicroOp) ∧
  (∀ (v : Level) (s : State), exec (.set .bl v) s =
    if Config.hasBacklight then
      .next { s with lines := { s.lines with bl := latchOf v }, trace := s.trace ++ [.set .bl v] }
    else .refused .reservedMicroOp)

/-! ## The step -/

/-- An idle block whose host presents a request word executes what the word decodes to, the host's act and this step's
level of the reset input used up (R130, R255). -/
def Obligations.StepRunsTheRequestedInstruction : Prop :=
  ∀ (s : State) (w : RequestWord) (rest : List HostAct), s.resetAsserted = false → s.idle →
    s.host = .request w :: rest →
    step s = exec (decodeRequest w) { s with host := rest, rst := s.rst.tail }

/-- A busy block with no delay pending performs the micro-operation at `upc`: a `SET` completes at once and retires
(`upc` advances, and at the end of the micro-program the operation is done), a `DELAY` is handed out (R130, R41). -/
def Obligations.StepRunsTheMicroOperationAtUpc : Prop :=
  ∀ (s : State), s.resetAsserted = false → s.busy = true → s.pending = none →
    (∀ l v, (uprog s.op)[s.upc]? = some (.set l v) → (MicroOp.set l v).wellFormed = true →
      ∃ t, exec (.set l v) s.tick = .next t ∧ step s = .next t.retire) ∧
    (∀ ms, (uprog s.op)[s.upc]? = some (.delay ms) → step s = exec (.delay ms) s.tick)

/-- The host's other acts: a byte written to `TXT` reads back and every other address reads as before; a wait is handed
to the timing collaborator; with nothing to do the block stays as it is (R61, R63, R271, R301). -/
def Obligations.StepDoesTheHostsActs : Prop :=
  ∀ (s : State) (rest : List HostAct), s.resetAsserted = false → s.idle →
    (∀ a b, s.host = .writeTxt a b :: rest → s.txtWf →
      ∃ t, step s = .next t ∧ t = { s with host := rest, rst := s.rst.tail, txt := t.txt } ∧ t.txtWf ∧
        ∀ a', txtRead t a' = if a' = a then b else txtRead s a') ∧
    (∀ ms, s.host = .wait ms :: rest →
      step s = .next { s with host := rest, rst := s.rst.tail, pending := some ⟨ms, .host⟩ }) ∧
    (s.host = [] → step s = .next { s with rst := s.rst.tail })

/-- R300, R38, R306: reset puts the block into the state of R50, whatever was in progress, and drops the delay that is
pending (the sequencer's by R306; the host's own wait by the model's choice, assumption log 28); and no step but reset
brings `cs` back to `Unknown` or clears `fault`. -/
def Obligations.ResetIsTheOnlyWayBack : Prop :=
  State.reset.cs = .unknown ∧
  (∀ s : State, s.resetAsserted = true →
    ∃ t, step s = .next t ∧ t.lines = ⟨.u, .u, .u, .u, .u, .u, .u⟩ ∧ t.cs = .unknown ∧ t.busy = false ∧ t.upc = 0 ∧
      t.fault = none ∧ t.temp = none ∧ t.trace = [] ∧ t.now = 0 ∧ t.pending = none) ∧
  (∀ s t : State, s.resetAsserted = false → step s = .next t →
    (t.cs = .unknown → s.cs = .unknown) ∧ (t.fault = none → s.fault = none))

/-- The machine right after reset holds what R50's table gives (R34, R38, R39, R41, R43, R44, R46). -/
def Obligations.ResetStateIsTheTable : Prop :=
  (∀ l : Line, State.reset.lines.get l = .u) ∧ State.reset.cs.code = 0 ∧ State.reset.busy = false ∧
  State.reset.upc = 0 ∧ faultBits State.reset.fault = 0 ∧ State.reset.temp = none ∧ State.reset.trace = [] ∧
  State.reset.now = 0

/-! ## Invariants -/

/-- The invariant holds right after reset. -/
def Obligations.ResetMeetsTheInvariant : Prop := State.reset.Inv

/-- Every step keeps the invariant: `TXT` keeps its canonical form; the lines are what the recorded `SET`s made them;
the sequencer stays inside the micro-program of an operation the host issued; `cs` takes its middle values only inside
`INIT`, where R37 puts them; a faulted block runs nothing; the time passed covers every delay asked for. -/
def Obligations.StepKeepsTheInvariant : Prop :=
  ∀ s t : State, s.Inv → step s = .next t → t.Inv

/-- R37: `cs` changes only inside `INIT`, at three points, and only forward: at acceptance before the first event, when
the latch cycle of the raw nibble `0x2` has completed (the 36th micro-operation), and when command `0x06` has
completed (the 105th). -/
def Obligations.CsMovesOnlyInsideInit : Prop :=
  ∀ s t : State, s.Inv → s.resetAsserted = false → step s = .next t →
    t.cs = s.cs ∨
    (s.cs = .unknown ∧ t.cs = .forcingEightBit ∧ s.busy = false ∧ t.busy = true ∧ t.op.instr = .init ∧ t.upc = 0 ∧
      t.trace = s.trace) ∨
    (s.cs = .forcingEightBit ∧ t.cs = .fourBitMode ∧ s.busy = true ∧ s.op.instr = .init ∧ t.upc = 36 ∧
      t.pending = none) ∨
    (s.cs = .fourBitMode ∧ t.cs = .configured ∧ s.busy = true ∧ s.op.instr = .init ∧ t.upc = 105 ∧
      t.pending = none)

/-- R41: while an operation runs, `upc` stays only while a delay is pending, and otherwise advances by exactly one; the
operation is complete exactly when it reaches the end of the micro-program. -/
def Obligations.UpcAdvancesByOne : Prop :=
  ∀ s t : State, s.Inv → s.busy = true → s.resetAsserted = false → step s = .next t →
    (t.upc = s.upc ∧ t.pending.isSome = true ∧ t.busy = true) ∨
    (t.upc = s.upc + 1 ∧ t.pending = none ∧ (t.busy = false ↔ t.upc = (uprog s.op).length))

/-- R51, R82, R63: the operand latches and the text buffer do not change while an operation runs: what was sampled at
acceptance is what is performed. -/
def Obligations.OperandsHoldWhileBusy : Prop :=
  ∀ s t : State, s.busy = true → s.resetAsserted = false → step s = .next t → t.op = s.op ∧ t.txt = s.txt

/-- R139: while an operation runs the host does nothing: its next act waits. -/
def Obligations.HostWaitsWhileBusy : Prop :=
  ∀ s t : State, s.busy = true → step s = .next t → t.host = s.host

/-- R32, R33: between resets a line changes only by a `SET` the sequencer performs, and only the line it names. -/
def Obligations.LinesChangeOnlyBySet : Prop :=
  ∀ s t : State, s.resetAsserted = false → step s = .next t → t.lines ≠ s.lines →
    s.busy = true ∧ s.pending = none ∧
      ∃ l v, (uprog s.op)[s.upc]? = some (.set l v) ∧ t.lines.get l = latchOf v ∧
        ∀ l', l' ≠ l → t.lines.get l' = s.lines.get l'

/-- "No operation reads a line latch and no rule of this spec branches on a line level" (R32): changing the levels
changes nothing of the next state but the levels. -/
def Obligations.LineLevelsAreNeverRead : Prop :=
  ∀ (s t : State) (L : Lines), step s = .next t →
    ∃ L', step { s with lines := L } = .next { t with lines := L' }

/-- R78: events are performed one at a time in program order; the micro-operation at `upc` is recorded whenever it is its
turn, so nothing is dropped or reordered; time never goes back. -/
def Obligations.TraceGrowsInProgramOrder : Prop :=
  ∀ s t : State, s.resetAsserted = false → step s = .next t →
    (t.trace = s.trace ∨
      (s.busy = true ∧ s.pending = none ∧ ∃ u, (uprog s.op)[s.upc]? = some u ∧ t.trace = s.trace ++ [u])) ∧
    (∀ u, s.busy = true → s.pending = none → (uprog s.op)[s.upc]? = some u → t.trace = s.trace ++ [u]) ∧
    s.now ≤ t.now

/-- The sequencer refines the pseudocode: from the first micro-operation of an operation, one micro-operation a step,
it reaches exactly the state in which the whole micro-program has been run to completion at once, with `busy` back to
0, `done` signalled, and `cs = Configured` if the operation is `INIT` (R16, R37, R130). -/
def Obligations.SequencerRefinesThePseudocode : Prop :=
  ∀ s : State, s.busy = true → s.upc = 0 → s.pending = none → s.undisturbed → s.op.instr.wellFormed = true →
    uprog s.op ≠ [] → (s.op.instr = .init → s.cs = .forcingEightBit) →
    ∃ u t, runMicroOps (uprog s.op) s = .next u ∧ Reaches s t ∧
      t = { u with busy := false, upc := (uprog s.op).length, resp := some ⟨none, none⟩,
                   cs := if s.op.instr = .init then .configured else s.cs }

/-- R272: a stalled timing source hangs the system indefinitely: with a delay pending and a collaborator that never
returns, nothing changes however many steps are taken. -/
def Obligations.StalledTimingHangs : Prop :=
  ∀ s t : State, s.rst = [] → s.pending.isSome = true → s.timer.hung = true →
    Reaches s t → t = s

/-! ## The bus operations -/

/-- R160: `INIT` requested in `cs = Unknown` is accepted with `cs = ForcingEightBit`, and ends with the handshake's
events in the trace, `cs = Configured`, at least 52 ms later. That there is no response while it runs, in `accepted`, is
the model's choice (assumption log 11). -/
def Obligations.InitCompletes : Prop :=
  ∀ s : State, s.ready → s.undisturbed → s.cs = .unknown →
    ∃ u, exec .init s = .next u ∧ u = { accepted s .init [] with cs := .forcingEightBit } ∧
      ∃ t, Reaches u t ∧
        OpDone s t .configured initEvents
          { byteLines s.lines .l 0x06 with bl := if Config.hasBacklight then .h else s.lines.bl } 52

/-- R180: `COMMAND b` on a configured block: `RS` low, the high nibble, the low nibble, and after byte `0x01` only a
further 2 ms. That there is no response while it runs, in `accepted`, is the model's choice (assumption log 11). -/
def Obligations.CommandCompletes : Prop :=
  ∀ (b : Byte) (s : State), s.ready → s.undisturbed → s.cs = .configured →
    ∃ u, exec (.command b) s = .next u ∧ u = accepted s (.command b) [] ∧
      ∃ t, Reaches u t ∧ OpDone s t .configured (commandEvents b) (byteLines s.lines .l b) (commandMs b)

/-- R181: `WRITEDATA b` on a configured block: `RS` high, the high nibble, the low nibble, no extra delay. That
there is no response while it runs, in `accepted`, is the model's choice (assumption log 11). -/
def Obligations.WriteDataCompletes : Prop :=
  ∀ (b : Byte) (s : State), s.ready → s.undisturbed → s.cs = .configured →
    ∃ u, exec (.writeData b) s = .next u ∧ u = accepted s (.writeData b) [] ∧
      ∃ t, Reaches u t ∧ OpDone s t .configured (byteEvents .h b) (byteLines s.lines .h b) 4

/-- R182: `CLEAR` has the events, the time, the flags and the faults of `COMMAND 0x01`, in every idle state. That there is
no response while it runs, in `accepted`, is the model's choice (assumption log 11). -/
def Obligations.ClearIsCommandOne : Prop :=
  (∀ s : State, s.ready → s.undisturbed → s.cs = .configured →
    ∃ u, exec .clear s = .next u ∧ u = accepted s .clear [] ∧
      ∃ t, Reaches u t ∧ OpDone s t .configured (commandEvents 0x01) (byteLines s.lines .l 0x01) 6) ∧
  (commandEvents 0x01).length = 18 ∧
  (∀ x y : List Byte, uprog ⟨.clear, x⟩ = uprog ⟨.command 0x01, y⟩) ∧
  (∀ s : State, s.busy = false →
    ∃ u v, exec .clear s = .next u ∧ exec (.command 0x01) s = .next v ∧ v = { u with op := v.op })

/-- R201: `SETPOSITION row, col` with a valid row is `COMMAND` of the set-address byte, the column clamped to
15 (an invalid row: `InvalidRowDoesNothing`). That there is no response while it runs, in `accepted`, is the model's
choice (assumption log 11). -/
def Obligations.SetPositionCompletes : Prop :=
  ∀ (row col : Byte) (s : State), s.ready → s.undisturbed → s.cs = .configured → row = 0 ∨ row = 1 →
    ∃ u, exec (.setPosition row col) s = .next u ∧ u = accepted s (.setPosition row col) [] ∧
      ∃ t, Reaches u t ∧
        (∀ a : Byte, a.toNat = (if row = 0 then 0x80 else 0xC0) + min col.toNat 15 →
          OpDone s t .configured (commandEvents a) (byteLines s.lines .l a) 4)

/-- R202: `PRINT row, col, text` with a valid row is the position command and then one `WRITEDATA` for each byte
`TXT[0] .. TXT[len-1]` in order, however long the text and whatever the column (an invalid row:
`InvalidRowDoesNothing`). That there is no response while it runs, in `accepted`, is the model's choice (assumption log
11), and so is the moment the text is sampled, at acceptance, which R82 allows (assumption log 7). -/
def Obligations.PrintCompletes : Prop :=
  ∀ (row col len : Byte) (s : State), s.ready → s.undisturbed → s.cs = .configured → row = 0 ∨ row = 1 →
    ∃ u, exec (.print row col len) s = .next u ∧ u = accepted s (.print row col len) (printText s len) ∧
      ∃ t, Reaches u t ∧
        (∀ a : Byte, a.toNat = (if row = 0 then 0x80 else 0xC0) + min col.toNat 15 →
          OpDone s t .configured
            (commandEvents a ++
              (List.range len.toNat).flatMap fun k => byteEvents .h (txtRead s (BitVec.ofNat 8 k)))
            (if len = 0 then byteLines s.lines .l a else byteLines s.lines .h (txtRead s (len - 1)))
            (4 + 4 * len.toNat))

/-- R205: with an invalid row `SETPOSITION` and `PRINT` perform no transaction at all: no event, no time, no line, no
fault, and the response is the one of a valid row. The model's own in these equations: the operand latches keep the
operation, with the text sampled at acceptance (assumption log 7; R51, R82), and `upc` is 0 when it has completed
(assumption log 10; R40, R41). -/
def Obligations.InvalidRowDoesNothing : Prop :=
  ∀ (row col len : Byte) (s : State), s.ready → s.cs = .configured → row ≠ 0 → row ≠ 1 →
    exec (.setPosition row col) s =
      .next { s with op := ⟨.setPosition row col, []⟩, upc := 0, resp := some ⟨none, none⟩ } ∧
    exec (.print row col len) s =
      .next { s with op := ⟨.print row col len, printText s len⟩, upc := 0, resp := some ⟨none, none⟩ }

/-! ## Micro-operations, micro-routines, bus patterns -/

/-- R131: `SET l, v` writes the line it names and no other, records the event, and changes nothing else; it is
performed even when the line already has the level. -/
def Obligations.SetDrivesOneLine : Prop :=
  ∀ (l : Line) (v : Level) (s : State), (l = .bl → Config.hasBacklight = true) →
    ∃ t, exec (.set l v) s = .next t ∧ t.lines.get l = latchOf v ∧
      (∀ l', l' ≠ l → t.lines.get l' = s.lines.get l') ∧
      t = { s with lines := t.lines, trace := s.trace ++ [.set l v] }

/-- R132: `DELAY n` records the event and hands `n` to the timing collaborator; the sequencer holds until it returns,
and then at least `n` milliseconds have passed; no line changes meanwhile. -/
def Obligations.DelayHoldsForItsTime : Prop :=
  (∀ (ms : BitVec 7) (s : State), ms ≠ 0 →
    exec (.delay ms) s =
      .next { s with trace := s.trace ++ [.delay ms], pending := some ⟨ms.setWidth 16, .sequencer⟩ }) ∧
  (∀ (s : State) (p : PendingDelay), s.resetAsserted = false → s.pending = some p →
    ∃ t, step s = .next t ∧ t.lines = s.lines ∧ t.trace = s.trace ∧
      (t = s.tick ∨ (t.pending = none ∧ s.now + (p.ms.toNat : Rat) ≤ t.now)) ∧
      (s.timer.stalls = false → t.pending = none ∧ s.now + (p.ms.toNat : Rat) ≤ t.now))

/-- R134: `LATCH n` presents the nibble on the four data lines, raises the strobe, holds, lowers it, holds: eight
events, at least 2 ms, `RS` not touched. -/
def Obligations.LatchPresentsTheNibble : Prop :=
  ∀ (n : Nibble) (s : State), s.timer.stalls = false →
    ∃ t, exec (.latch n) s = .next t ∧ Ran s t (latchEvents n) (nibbleLines s.lines n) 2

/-- R136: `SENDBYTE b` is `LATCH b[7:4]` and then `LATCH b[3:0]`: sixteen events, at least 4 ms, `RS` not touched. -/
def Obligations.SendByteIsTwoLatches : Prop :=
  (∀ (b : Byte) (s : State), s.timer.stalls = false →
    ∃ u t, exec (.latch (hiNibble b)) s = .next u ∧ exec (.latch (loNibble b)) u = .next t ∧
      exec (.sendByte b) s = .next t ∧
      Ran s t (latchEvents (hiNibble b) ++ latchEvents (loNibble b)) (nibbleLines s.lines (loNibble b)) 4) ∧
  (∀ b : Byte, (latchEvents (hiNibble b) ++ latchEvents (loNibble b)).length = 16 ∧ hiNibble b ++ loNibble b = b)

/-- The raw nibbles of R106 are latched singly, `RS` untouched (R137, R160). -/
def Obligations.RawNibblePatternsAreLatched : Prop :=
  ∀ s : State, s.timer.stalls = false →
    (∃ t, exec .nibWake s = .next t ∧ Ran s t (latchEvents 0x3) (nibbleLines s.lines 0x3) 2) ∧
    (∃ t, exec .nib4Bit s = .next t ∧ Ran s t (latchEvents 0x2) (nibbleLines s.lines 0x2) 2)

/-- The configuration and clear command bytes of R106 are sent as `COMMAND` sends them, without a legality check
(R160, R165, R183). -/
def Obligations.ConfigurationPatternsAreSent : Prop :=
  ∀ s : State, s.timer.stalls = false →
    (∃ t, exec .cmdFunctionSet s = .next t ∧ Ran s t (commandEvents 0x28) (byteLines s.lines .l 0x28) 4) ∧
    (∃ t, exec .cmdDisplayCtrl s = .next t ∧ Ran s t (commandEvents 0x0C) (byteLines s.lines .l 0x0C) 4) ∧
    (∃ t, exec .cmdClear s = .next t ∧ Ran s t (commandEvents 0x01) (byteLines s.lines .l 0x01) 6) ∧
    (∃ t, exec .cmdEntryMode s = .next t ∧ Ran s t (commandEvents 0x06) (byteLines s.lines .l 0x06) 4)

/-- The set-address command bytes `0x80 + c` and `0xC0 + c` and the data byte of R106 are sent with `RS` at the level
of their kind (R105). -/
def Obligations.AddressAndDataPatternsAreSent : Prop :=
  ∀ s : State, s.timer.stalls = false →
    (∀ (c : Nibble) (a : Byte), a.toNat = 0x80 + c.toNat →
      ∃ t, exec (.cmdAddrRow0 c) s = .next t ∧ Ran s t (commandEvents a) (byteLines s.lines .l a) 4) ∧
    (∀ (c : Nibble) (a : Byte), a.toNat = 0xC0 + c.toNat →
      ∃ t, exec (.cmdAddrRow1 c) s = .next t ∧ Ran s t (commandEvents a) (byteLines s.lines .l a) 4) ∧
    (∀ d : Byte, ∃ t, exec (.dataByte d) s = .next t ∧ Ran s t (byteEvents .h d) (byteLines s.lines .h d) 4)

/-! ## Faults -/

/-- R253: `INIT` requested while `cs != Unknown` raises `F_REINIT`, with no event. -/
def Obligations.SecondInitFaults : Prop :=
  ∀ s : State, s.busy = false → s.fault = none → s.cs ≠ .unknown →
    exec .init s = .next (faultEntered s .reinit)

/-- R252, R206: any bus operation other than `INIT` requested while `cs` is not `Configured` raises
`F_NOT_CONFIGURED` and emits nothing, an invalid row included. -/
def Obligations.BusOperationsNeedConfigured : Prop :=
  ∀ (i : Instr) (s : State), isBusOperation i = true → i ≠ .init → s.busy = false → s.fault = none →
    s.cs ≠ .configured → exec i s = .next (faultEntered s .notConfigured)

/-- R256: a request that raises a fault keeps the first code, answers its own, and has no effect at all: no event, `L`,
`cs`, `temp`, `trace` and `now` unchanged, `busy` still 0. -/
def Obligations.FaultEntryKeepsTheFirstCode : Prop :=
  ∀ (s : State) (i : Instr) (c : FaultCode), s.busy = false →
    ((∃ w, i = .illegal w) ∧ c = .illegalReq ∨
      s.fault = none ∧ i = .init ∧ s.cs ≠ .unknown ∧ c = .reinit ∨
      s.fault = none ∧ isBusOperation i = true ∧ i ≠ .init ∧ s.cs ≠ .configured ∧ c = .notConfigured) →
    ∃ t, exec i s = .next t ∧ (s.fault = none → t.fault = some c) ∧ (∀ d, s.fault = some d → t.fault = some d) ∧
      t.lines = s.lines ∧ t.cs = s.cs ∧ t.temp = s.temp ∧ t.trace = s.trace ∧ t.now = s.now ∧ t.busy = false ∧
      t.resp = some ⟨some c, none⟩ ∧ t = { s with fault := t.fault, resp := t.resp }

/-- R258: after a fault every bus request is refused with no event, the response repeating the stored code; `CONVERT`
still works; and a faulted state is never a good final state. -/
def Obligations.FaultedBlockRefuses : Prop :=
  ∀ (s : State) (c : FaultCode), s.busy = false → s.fault = some c →
    (∀ i : Instr, isBusOperation i = true → exec i s = .next { s with resp := some ⟨some c, none⟩ }) ∧
    (∀ code : SampleCode, ∃ t, exec (.convert code) s = .next t ∧ t.temp = some (convertValue code) ∧
      t.fault = some c) ∧
    s.goodFinal = false

/-- R257: no step but reset clears or changes a stored fault code, and while it is stored no event is emitted. -/
def Obligations.FaultIsStickyAndHalts : Prop :=
  ∀ (s t : State) (c : FaultCode), s.Inv → s.resetAsserted = false → s.fault = some c → step s = .next t →
    t.fault = some c ∧ t.trace = s.trace ∧ t.lines = s.lines ∧ t.cs = s.cs ∧ t.busy = false

/-- R255: the order of the checks on a request word, and what each leads to. That the response to `CONVERT` carries no
fault code on a faulted block is the model's reading (assumption log 19). -/
def Obligations.RequestChecksInOrder : Prop :=
  ∀ (w : RequestWord) (s : State), s.busy = false →
    match decodeRequest w with
    | .illegal _ => exec (decodeRequest w) s = .next (faultEntered s .illegalReq)
    | .convert code =>
      exec (decodeRequest w) s =
        .next { s with temp := some (convertValue code), resp := some ⟨none, some (convertValue code)⟩ }
    | i =>
      match s.fault with
      | some c => exec i s = .next { s with resp := some ⟨some c, none⟩ }
      | none =>
        if i = .init ∧ s.cs ≠ .unknown then exec i s = .next (faultEntered s .reinit)
        else if i ≠ .init ∧ s.cs ≠ .configured then exec i s = .next (faultEntered s .notConfigured)
        else ∃ t, exec i s = .next t ∧ t.op.instr = i ∧ t.upc = 0 ∧ t.fault = none ∧ t.trace = s.trace ∧
          t.busy = decide (uprog t.op ≠ [])

/-! ## The linearizer -/

/-- R220: for every code but 4095, `CONVERT` writes to `temp`, and returns, the formula evaluated with the block's
numerics, and changes nothing else; for code 0 too. That the response carries no fault code on a faulted block is the
model's reading (assumption log 19), and so is that what a format makes of 273.15 is part of its `fsub` (assumption log
14). -/
def Obligations.ConvertEvaluatesTheFormula : Prop :=
  ∀ (code : SampleCode) (s : State), code ≠ 4095 →
    ∃ r lnR invT v,
      r = num.fdiv (num.fmul (.finite 10000) (.finite (num.ofInt code)))
        (.finite (num.ofInt (BitVec.ofNat 12 (4095 - code.toNat)))) ∧
      lnR = num.ln r ∧
      invT = num.fadd (num.fadd (.finite num.shA) (num.fmul (.finite num.shB) lnR))
        (num.fmul (.finite num.shC) (num.cube lnR)) ∧
      v = num.fsub (num.fdiv (.finite 1) invT) (.finite (27315 / 100)) ∧
      exec (.convert code) s = .next { s with temp := some v, resp := some ⟨none, some v⟩ }

/-- R221: `CONVERT 4095` is exactly `+inf` in every configuration, whatever the numerics: written to `temp`, returned in
the response (whose fault code is left to `RequestChecksInOrder`), with no other change. -/
def Obligations.OpenCircuitIsInfinity : Prop :=
  (∀ n : Sys2Proof.Num, convertWith n 4095 = .posInf) ∧
  (∀ s : State, ∃ c, exec (.convert 4095) s =
    .next { s with temp := some .posInf, resp := some ⟨c, some .posInf⟩ })

/-- R229: "For all code in [1,4094], convert(code) is finite". The record of this block is taken to be admissible, as R229
requires (assumption log 13). -/
def Obligations.ConvertIsFiniteOnItsRange : Prop :=
  ∀ (code : SampleCode) (s : State), 1 ≤ code.toNat → code.toNat ≤ 4094 →
    ∃ t v, exec (.convert code) s = .next t ∧ t.temp = some v ∧ v.isFinite = true

/-- R230: `convert` is strictly decreasing on [1,4094]. The record of this block is taken to be admissible (assumption
log 13). -/
def Obligations.ConvertIsStrictlyDecreasing : Prop :=
  ∀ (a b : SampleCode), 1 ≤ a.toNat → a.toNat < b.toNat → b.toNat ≤ 4094 →
    ∃ x y : Rat, (convertValue a).value? = some x ∧ (convertValue b).value? = some y ∧ y < x

/-- R227: `CONVERT` is independent of the driver: it answers a next state in every state, its result is the same in
any two states, and it leaves everything but `temp` and the response as it was. -/
def Obligations.ConvertIsIndependentOfTheDriver : Prop :=
  ∀ (code : SampleCode) (s s' : State),
    ∃ t t', exec (.convert code) s = .next t ∧ exec (.convert code) s' = .next t' ∧ t.temp = t'.temp ∧
      t = { s with temp := t.temp, resp := t.resp }

/-- R225 in the default instance: the integers and the product `10000·code` are exact in binary32, the divisor is never
zero once the guard has taken 4095, and what is subtracted for `273.15` is `273.149993896484375` (held by its `fsub`:
assumption log 14). -/
def Obligations.Binary32ExactnessFacts : Prop :=
  (∀ code : SampleCode, mul32 (.finite (lit32 10000)) (.finite (code.toNat : Rat)) =
    .finite (10000 * (code.toNat : Rat))) ∧
  (∀ code : SampleCode, lit32 (code.toNat : Rat) = (code.toNat : Rat)) ∧
  (∀ code : SampleCode, code ≠ 4095 → 1 ≤ (4095 - code).toNat ∧ (4095 - code).toNat = 4095 - code.toNat) ∧
  lit32 (27315 / 100) = 273149993896484375 / 1000000000000000 ∧
  (∀ (ln : Temp → Temp) (a b c : Rat) (x : Temp), (binary32 ln a b c).fsub x (.finite kelvinOffset) =
    sub32 x (.finite (273149993896484375 / 1000000000000000)))

/-! ## Micro-programs and the bus -/

/-- R142: the integer laws of the nibble encoder. -/
def Obligations.NibbleEncoderLaws : Prop :=
  (∀ b : Byte, (hiNibble b).toNat = b.toNat / 16 ∧ (loNibble b).toNat = b.toNat % 16 ∧
    16 * (hiNibble b).toNat + (loNibble b).toNat = b.toNat) ∧
  (∀ (n : Nibble) (i : Fin 4), (n.getLsbD i).toNat = n.toNat / 2 ^ i.val % 2)

/-- R203: the integer laws of the address function. -/
def Obligations.AddressFunctionLaws : Prop :=
  ∀ (row col a : Byte), posCmd row col = some a →
    (row = 0 ∨ row = 1) ∧ (loNibble a).toNat = min col.toNat 15 ∧
    hiNibble a = (if row = 0 then 0x8 else 0xC) ∧
    a.toNat = (if row = 0 then 0x80 else 0xC0) + min col.toNat 15 ∧
    a = (if row = 0 then 0x80 else 0xC0) ||| BitVec.ofNat 8 (min col.toNat 15) ∧ a ≠ 0x01

/-- R208: every column from 15 on has the micro-program of column 15. -/
def Obligations.ColumnsFrom15AreColumn15 : Prop :=
  ∀ (row col len : Byte) (text : List Byte), 15 ≤ col.toNat →
    uprog ⟨.print row col len, text⟩ = uprog ⟨.print row 15 len, text⟩

/-- R207: a `PRINT` of an empty text has exactly the micro-program of `SETPOSITION`, and with an invalid row none. -/
def Obligations.EmptyTextIsSetPosition : Prop :=
  ∀ (row col : Byte) (s : State),
    uprog ⟨.print row col 0, printText s 0⟩ = uprog ⟨.setPosition row col, []⟩ ∧
    (row ≠ 0 → row ≠ 1 → uprog ⟨.print row col 0, printText s 0⟩ = [])

/-- R183: the settle delay belongs to the command byte `0x01` and to nothing else, wherever the command is sent from. -/
def Obligations.OnlyCommandOneSettles : Prop :=
  (∀ (b : Byte) (x : List Byte), .delay 2 ∈ uprog ⟨.command b, x⟩ ↔ b = 0x01) ∧
  (∀ x : List Byte, .delay 2 ∈ uprog ⟨.clear, x⟩) ∧
  (∀ x : List Byte, (uprog ⟨.init, x⟩).count (.delay 2) = 1) ∧
  (∀ (b : Byte) (x : List Byte), .delay 2 ∉ uprog ⟨.writeData b, x⟩) ∧
  (∀ (row col : Byte) (x : List Byte), .delay 2 ∉ uprog ⟨.setPosition row col, x⟩) ∧
  (∀ (row col len : Byte) (x : List Byte), .delay 2 ∉ uprog ⟨.print row col len, x⟩)

/-- R135, R310: in the micro-program of every bus operation a rising strobe is followed by its 1 ms hold, the falling
strobe and the low hold, before anything else; so the nibble and `RS` are stable from the rise to the end of the low
hold. -/
def Obligations.EveryStrobeIsHeld : Prop :=
  ∀ (i : Instr) (text : List Byte) (k : Nat), isBusOperation i = true →
    (uprog ⟨i, text⟩)[k]? = some (.set .e .h) →
    (uprog ⟨i, text⟩)[k + 1]? = some (.delay 1) ∧ (uprog ⟨i, text⟩)[k + 2]? = some (.set .e .l) ∧
    (uprog ⟨i, text⟩)[k + 3]? = some (.delay 1)

/-- R137, R105: in the micro-program of every bus operation a `Set` of `RS` is followed by sixteen micro-operations that
do not write `RS`, so it is constant across both latch cycles of a byte. -/
def Obligations.RsIsStableThroughAByte : Prop :=
  ∀ (i : Instr) (text : List Byte) (k j : Nat) (v w : Level), isBusOperation i = true →
    (uprog ⟨i, text⟩)[k]? = some (.set .rs v) → 1 ≤ j → j ≤ 16 →
    (uprog ⟨i, text⟩)[k + j]? ≠ some (.set .rs w)

/-- R72, R313, R135: every bus operation sends an even number of nibbles, and one that sends anything ends with the
strobe low, whatever the lines were before it. -/
def Obligations.NibblesComeInPairs : Prop :=
  ∀ (i : Instr) (text : List Byte) (L : Lines), isBusOperation i = true →
    latchCycles (uprog ⟨i, text⟩) % 2 = 0 ∧
    (uprog ⟨i, text⟩ ≠ [] → (L.after (uprog ⟨i, text⟩)).e = .l)

/-- R163: the counts of `INIT`: twelve latch cycles with these nibbles, all with `RS = L`, 105 events or 106 with a
backlight, 52 ms requested. -/
def Obligations.InitSendsTwelveNibbles : Prop :=
  ∀ (L : Lines) (bl : Bool),
    observe L false (initProgram bl) =
      [⟨.l, 0x3⟩, ⟨.l, 0x3⟩, ⟨.l, 0x3⟩, ⟨.l, 0x2⟩, ⟨.l, 0x2⟩, ⟨.l, 0x8⟩, ⟨.l, 0x0⟩, ⟨.l, 0xC⟩, ⟨.l, 0x0⟩, ⟨.l, 0x1⟩,
       ⟨.l, 0x0⟩, ⟨.l, 0x6⟩] ∧
    latchCycles (initProgram bl) = 12 ∧ (initProgram bl).length = (if bl then 106 else 105) ∧
    requestedMs (initProgram bl) = 52

/-- R141, R68, R69: the bus observer reads back from any byte's events the byte, as a command or as data, and from a
whole `PRINT` the position command and then the text, byte for byte in order. -/
def Obligations.ObserverReadsBackWhatIsSent : Prop :=
  (∀ (L : Lines) (n : Nibble), observe L false (latchProgram n) = [⟨L.rs, n⟩]) ∧
  (∀ (L : Lines) (b : Byte), pairUp (observe L false (commandProgram b)) = [⟨.l, b⟩] ∧
    pairUp (observe L false (writeDataProgram b)) = [⟨.h, b⟩]) ∧
  (∀ (L : Lines) (row col a : Byte) (text : List Byte), posCmd row col = some a →
    pairUp (observe L false (printProgram row col text)) = ⟨.l, a⟩ :: text.map fun ch => ⟨.h, ch⟩)

/-- R320: the number of events, the number of latch cycles and the milliseconds requested, of every operation of its
table. A faulting request has none of them: an illegal word has no micro-program, and the other faults are
`FaultEntryKeepsTheFirstCode`. -/
def Obligations.EventCountsAndMinimumTimes : Prop :=
  (∀ (l : Line) (v : Level) (x : List Byte), (uprog ⟨.set l v, x⟩).length = 1 ∧
    latchCycles (uprog ⟨.set l v, x⟩) = 0 ∧ requestedMs (uprog ⟨.set l v, x⟩) = 0) ∧
  (∀ (ms : BitVec 7) (x : List Byte), (uprog ⟨.delay ms, x⟩).length = 1 ∧
    latchCycles (uprog ⟨.delay ms, x⟩) = 0 ∧ requestedMs (uprog ⟨.delay ms, x⟩) = ms.toNat) ∧
  (∀ (n : Nibble) (x : List Byte), (uprog ⟨.latch n, x⟩).length = 8 ∧ latchCycles (uprog ⟨.latch n, x⟩) = 1 ∧
    requestedMs (uprog ⟨.latch n, x⟩) = 2) ∧
  (∀ (b : Byte) (x : List Byte), (uprog ⟨.sendByte b, x⟩).length = 16 ∧ latchCycles (uprog ⟨.sendByte b, x⟩) = 2 ∧
    requestedMs (uprog ⟨.sendByte b, x⟩) = 4) ∧
  (∀ (b : Byte) (x : List Byte), (uprog ⟨.command b, x⟩).length = (if b = 0x01 then 18 else 17) ∧
    latchCycles (uprog ⟨.command b, x⟩) = 2 ∧
    requestedMs (uprog ⟨.command b, x⟩) = (if b = 0x01 then 6 else 4)) ∧
  (∀ x : List Byte, (uprog ⟨.clear, x⟩).length = 18 ∧ latchCycles (uprog ⟨.clear, x⟩) = 2 ∧
    requestedMs (uprog ⟨.clear, x⟩) = 6) ∧
  (∀ (b : Byte) (x : List Byte), (uprog ⟨.writeData b, x⟩).length = 17 ∧ latchCycles (uprog ⟨.writeData b, x⟩) = 2 ∧
    requestedMs (uprog ⟨.writeData b, x⟩) = 4) ∧
  (∀ (row col : Byte) (x : List Byte), row = 0 ∨ row = 1 →
    (uprog ⟨.setPosition row col, x⟩).length = 17 ∧ latchCycles (uprog ⟨.setPosition row col, x⟩) = 2 ∧
    requestedMs (uprog ⟨.setPosition row col, x⟩) = 4) ∧
  (∀ (row col len : Byte) (x : List Byte), row = 0 ∨ row = 1 →
    (uprog ⟨.print row col len, x⟩).length = 17 + 17 * x.length ∧
    latchCycles (uprog ⟨.print row col len, x⟩) = 2 + 2 * x.length ∧
    requestedMs (uprog ⟨.print row col len, x⟩) = 4 + 4 * x.length) ∧
  (∀ (row col len : Byte) (x : List Byte), row ≠ 0 → row ≠ 1 →
    uprog ⟨.setPosition row col, x⟩ = [] ∧ uprog ⟨.print row col len, x⟩ = []) ∧
  (∀ x : List Byte, (uprog ⟨.init, x⟩).length = (if Config.hasBacklight then 106 else 105) ∧
    latchCycles (uprog ⟨.init, x⟩) = 12 ∧ requestedMs (uprog ⟨.init, x⟩) = 52) ∧
  (∀ (code : SampleCode) (x : List Byte), uprog ⟨.convert code, x⟩ = []) ∧
  (∀ (w : RequestWord) (x : List Byte), uprog ⟨.illegal w, x⟩ = []) ∧
  (∀ (s : State) (len : Byte), (printText s len).length = len.toNat)

/-- R279, R280, R281: whatever the first five codes, an open circuit on the sixth channel makes the second display line
end in `T6:inf`, and the host's cycle prints that line at row 1; and a finite temperature with two integer digits is a
seven-character field with one digit after the point, within a tenth of the temperature (which neighbour it is, is the
host's rounding rule, open: assumption log 24). -/
def Obligations.OpenCircuitShowsAsInf : Prop :=
  (∀ c0 c1 c2 c3 c4 : SampleCode, ∃ pre line acts,
    line = pre ++ [0x54, 0x36, 0x3A, 0x69, 0x6E, 0x66] ∧
    hostCycle [some c0, some c1, some c2, some c3, some c4, some 4095] = acts ++ printActs 1 line ++ [.wait 1000]) ∧
  (∀ (label : Nat) (x : Rat), 10 ≤ x → x ≤ 999 / 10 → ∃ d1 d2 d3 : Nat, d1 < 10 ∧ d2 < 10 ∧ d3 < 10 ∧
    formatField label (.finite x) =
      [0x54, BitVec.ofNat 8 (0x30 + label), 0x3A, BitVec.ofNat 8 (0x30 + d1), BitVec.ofNat 8 (0x30 + d2), 0x2E,
       BitVec.ofNat 8 (0x30 + d3)] ∧
    |x - (10 * (d1 : Rat) + (d2 : Rat) + (d3 : Rat) / 10)| < 1 / 10)

/-- R277, R278, R262: the host's program is `INIT`, exactly once and first, and then its cycles one after another until a
channel read fails, after which it asks nothing more (a finite stretch of the endless loop: assumption log 24). -/
def Obligations.HostStartsOnceThenLoops : Prop :=
  (∀ readings : List (List (Option SampleCode)),
    hostProgram readings = .request 0x10000000 :: hostLoop readings ∧ .request 0x10000000 ∉ hostLoop readings) ∧
  (∀ (c0 c1 c2 c3 c4 c5 : SampleCode) (rest : List (List (Option SampleCode))),
    hostLoop ([some c0, some c1, some c2, some c3, some c4, some c5] :: rest) =
      cycleActs c0 c1 c2 c3 c4 c5 ++ hostLoop rest) ∧
  (∀ (reads : List (Option SampleCode)) (rest : List (List (Option SampleCode))), none ∈ reads →
    hostLoop (reads :: rest) = [])
end

