-- ==== Sys2Proof/Laws/Memory.lean ====
section
/-! SUPPORT. The laws of the text buffer: every operation keeps its canonical form, a read after a write gives what
was written, and a write leaves every other address alone. -/

namespace Sys2Proof.Machine

/-- In the canonical form every later address is greater. -/
theorem Memory.wf_cons {c : Host.Cell} {m : List Host.Cell} :
    Memory.wf (c :: m) = true ↔
      c.1 < 256 ∧ c.2 ≠ Memory.unlisted ∧ (∀ d ∈ m, c.1 < d.1) ∧ Memory.wf m = true := by
  induction m generalizing c with
  | nil => simp [Memory.wf]
  | cons d m ih =>
    have hd : Memory.wf (c :: d :: m) = true ↔
        c.1 < d.1 ∧ c.2 ≠ Memory.unlisted ∧ Memory.wf (d :: m) = true := by
      simp [Memory.wf, and_assoc]
    rw [hd]
    constructor
    · rintro ⟨h1, h2, h3⟩
      obtain ⟨h4, -, h5, -⟩ := ih.1 h3
      refine ⟨by omega, h2, ?_, h3⟩
      intro x hx
      rcases List.mem_cons.1 hx with rfl | hx
      · exact h1
      · exact lt_trans h1 (h5 x hx)
    · rintro ⟨-, h2, h3, h4⟩
      exact ⟨h3 d (by simp), h2, h4⟩

/-- An address below every entry reads as unlisted. -/
theorem Memory.read_of_lt {m : List Host.Cell} {a : Nat} (h : ∀ c ∈ m, a < c.1) :
    Memory.read m a = Memory.unlisted := by
  induction m with
  | nil => rfl
  | cons c m ih =>
    have hc := h c (by simp)
    simp only [Memory.read, if_neg (by omega : ¬c.1 = a)]
    exact ih fun d hd => h d (by simp [hd])

theorem Memory.mem_insert {m : List Host.Cell} {a : Nat} {b : Byte} {c : Host.Cell}
    (h : c ∈ Memory.insert m a b) : c = (a, b) ∨ c ∈ m := by
  induction m with
  | nil => simpa [Memory.insert] using h
  | cons d m ih =>
    simp only [Memory.insert] at h
    split at h
    · simpa using h
    · split at h
      · rcases List.mem_cons.1 h with h | h <;> simp [h]
      · rcases List.mem_cons.1 h with h | h
        · simp [h]
        · rcases ih h with h | h <;> simp [h]

theorem Memory.mem_erase {m : List Host.Cell} {a : Nat} {c : Host.Cell}
    (h : c ∈ Memory.erase m a) : c ∈ m := by
  induction m with
  | nil => simp [Memory.erase] at h
  | cons d m ih =>
    simp only [Memory.erase] at h
    split at h
    · simp [h]
    · rcases List.mem_cons.1 h with h | h
      · simp [h]
      · simp [ih h]

theorem Memory.insert_wf {m : List Host.Cell} {a : Nat} {b : Byte} (ha : a < 256) (hb : b ≠ Memory.unlisted)
    (h : Memory.wf m = true) : Memory.wf (Memory.insert m a b) = true := by
  induction m with
  | nil => simp [Memory.insert, Memory.wf, ha, hb]
  | cons c m ih =>
    obtain ⟨h1, h2, h3, h4⟩ := Memory.wf_cons.1 h
    simp only [Memory.insert]
    split
    · rename_i hac
      refine Memory.wf_cons.2 ⟨ha, hb, ?_, h⟩
      intro d hd
      rcases List.mem_cons.1 hd with rfl | hd
      · exact hac
      · exact lt_trans hac (h3 d hd)
    · split
      · rename_i hca
        exact Memory.wf_cons.2 ⟨ha, hb, fun d hd => hca ▸ h3 d hd, h4⟩
      · refine Memory.wf_cons.2 ⟨h1, h2, ?_, ih h4⟩
        intro d hd
        rcases Memory.mem_insert hd with rfl | hd
        · change c.1 < a
          omega
        · exact h3 d hd

theorem Memory.erase_wf {m : List Host.Cell} {a : Nat} (h : Memory.wf m = true) :
    Memory.wf (Memory.erase m a) = true := by
  induction m with
  | nil => rfl
  | cons c m ih =>
    obtain ⟨h1, h2, h3, h4⟩ := Memory.wf_cons.1 h
    simp only [Memory.erase]
    split
    · exact h4
    · exact Memory.wf_cons.2 ⟨h1, h2, fun d hd => h3 d (Memory.mem_erase hd), ih h4⟩

/-- Every write keeps the canonical form. -/
theorem Memory.write_wf {m : List Host.Cell} {a : Nat} {b : Byte} (ha : a < 256) (h : Memory.wf m = true) :
    Memory.wf (Memory.write m a b) = true := by
  unfold Memory.write
  split
  · exact Memory.erase_wf h
  · exact Memory.insert_wf ha ‹_› h

theorem Memory.read_insert {m : List Host.Cell} {a a' : Nat} {b : Byte} (h : Memory.wf m = true) :
    Memory.read (Memory.insert m a b) a' = if a = a' then b else Memory.read m a' := by
  induction m with
  | nil => simp [Memory.insert, Memory.read]
  | cons c m ih =>
    obtain ⟨-, -, -, h4⟩ := Memory.wf_cons.1 h
    simp only [Memory.insert]
    split
    · simp [Memory.read]
    · split
      · rename_i hca
        simp only [Memory.read, hca]
        split <;> rfl
      · rename_i hac hca
        simp only [Memory.read, ih h4]
        by_cases hc : c.1 = a'
        · simp [hc, show ¬a = a' by omega]
        · simp [hc]

theorem Memory.read_erase {m : List Host.Cell} {a a' : Nat} (h : Memory.wf m = true) :
    Memory.read (Memory.erase m a) a' = if a = a' then Memory.unlisted else Memory.read m a' := by
  induction m with
  | nil => simp [Memory.erase, Memory.read]
  | cons c m ih =>
    obtain ⟨-, -, h3, h4⟩ := Memory.wf_cons.1 h
    simp only [Memory.erase]
    split
    · rename_i hca
      by_cases ha : a = a'
      · subst ha
        simp only [if_true]
        exact Memory.read_of_lt fun d hd => hca ▸ h3 d hd
      · simp [Memory.read, ha, hca]
    · rename_i hca
      simp only [Memory.read, ih h4]
      by_cases hc : c.1 = a'
      · simp [hc, show ¬a = a' by omega]
      · simp [hc]

/-- A read after a write gives the byte written at its address, and every other address reads as before. -/
theorem Memory.read_write {m : List Host.Cell} {a a' : Nat} {b : Byte} (h : Memory.wf m = true) :
    Memory.read (Memory.write m a b) a' = if a = a' then b else Memory.read m a' := by
  unfold Memory.write
  split
  · rename_i hb
    rw [Memory.read_erase h, hb]
  · exact Memory.read_insert h

/-- The text operand is `TXT[0]`, `TXT[1]`, …, one byte for each character of the length. -/
theorem printText_length (s : State) (len : Byte) : (printText s len).length = len.toNat := by
  simp [printText]

theorem printText_getElem? (s : State) (len : Byte) (k : Nat) (h : k < len.toNat) :
    (printText s len)[k]? = some (Memory.read s.txt k) := by
  simp [printText, h]

end Sys2Proof.Machine
end

