-- ==== Sys2Proof/Laws/State.lean ====
section
/-! SUPPORT. What each named update of the state does to each field, one lemma a field, so that no later proof
unfolds a record update. -/

namespace Sys2Proof.Machine

variable (s : State)

/-! ## `emitSet` -/

@[simp] theorem State.emitSet_lines (l : Line) (v : Level) : (s.emitSet l v).lines = s.lines.put l v := rfl
@[simp] theorem State.emitSet_cs (l : Line) (v : Level) : (s.emitSet l v).cs = s.cs := rfl
@[simp] theorem State.emitSet_busy (l : Line) (v : Level) : (s.emitSet l v).busy = s.busy := rfl
@[simp] theorem State.emitSet_upc (l : Line) (v : Level) : (s.emitSet l v).upc = s.upc := rfl
@[simp] theorem State.emitSet_op (l : Line) (v : Level) : (s.emitSet l v).op = s.op := rfl
@[simp] theorem State.emitSet_fault (l : Line) (v : Level) : (s.emitSet l v).fault = s.fault := rfl
@[simp] theorem State.emitSet_temp (l : Line) (v : Level) : (s.emitSet l v).temp = s.temp := rfl
@[simp] theorem State.emitSet_txt (l : Line) (v : Level) : (s.emitSet l v).txt = s.txt := rfl
@[simp] theorem State.emitSet_pending (l : Line) (v : Level) : (s.emitSet l v).pending = s.pending := rfl
@[simp] theorem State.emitSet_resp (l : Line) (v : Level) : (s.emitSet l v).resp = s.resp := rfl
@[simp] theorem State.emitSet_trace (l : Line) (v : Level) : (s.emitSet l v).trace = s.trace ++ [.set l v] := rfl
@[simp] theorem State.emitSet_now (l : Line) (v : Level) : (s.emitSet l v).now = s.now := rfl
@[simp] theorem State.emitSet_host (l : Line) (v : Level) : (s.emitSet l v).host = s.host := rfl
@[simp] theorem State.emitSet_timer (l : Line) (v : Level) : (s.emitSet l v).timer = s.timer := rfl
@[simp] theorem State.emitSet_rst (l : Line) (v : Level) : (s.emitSet l v).rst = s.rst := rfl

/-! ## `emitDelay` -/

@[simp] theorem State.emitDelay_lines (ms : BitVec 7) : (s.emitDelay ms).lines = s.lines := rfl
@[simp] theorem State.emitDelay_cs (ms : BitVec 7) : (s.emitDelay ms).cs = s.cs := rfl
@[simp] theorem State.emitDelay_busy (ms : BitVec 7) : (s.emitDelay ms).busy = s.busy := rfl
@[simp] theorem State.emitDelay_upc (ms : BitVec 7) : (s.emitDelay ms).upc = s.upc := rfl
@[simp] theorem State.emitDelay_op (ms : BitVec 7) : (s.emitDelay ms).op = s.op := rfl
@[simp] theorem State.emitDelay_fault (ms : BitVec 7) : (s.emitDelay ms).fault = s.fault := rfl
@[simp] theorem State.emitDelay_temp (ms : BitVec 7) : (s.emitDelay ms).temp = s.temp := rfl
@[simp] theorem State.emitDelay_txt (ms : BitVec 7) : (s.emitDelay ms).txt = s.txt := rfl
@[simp] theorem State.emitDelay_pending (ms : BitVec 7) : (s.emitDelay ms).pending = some ⟨ms.setWidth 16, .sequencer⟩ := rfl
@[simp] theorem State.emitDelay_resp (ms : BitVec 7) : (s.emitDelay ms).resp = s.resp := rfl
@[simp] theorem State.emitDelay_trace (ms : BitVec 7) : (s.emitDelay ms).trace = s.trace ++ [.delay ms] := rfl
@[simp] theorem State.emitDelay_now (ms : BitVec 7) : (s.emitDelay ms).now = s.now := rfl
@[simp] theorem State.emitDelay_host (ms : BitVec 7) : (s.emitDelay ms).host = s.host := rfl
@[simp] theorem State.emitDelay_timer (ms : BitVec 7) : (s.emitDelay ms).timer = s.timer := rfl
@[simp] theorem State.emitDelay_rst (ms : BitVec 7) : (s.emitDelay ms).rst = s.rst := rfl

/-! ## `delayReturned` -/

@[simp] theorem State.delayReturned_lines (ms : BitVec 16) (late : Rat) (tm : Timer) : (s.delayReturned ms late tm).lines = s.lines := rfl
@[simp] theorem State.delayReturned_cs (ms : BitVec 16) (late : Rat) (tm : Timer) : (s.delayReturned ms late tm).cs = s.cs := rfl
@[simp] theorem State.delayReturned_busy (ms : BitVec 16) (late : Rat) (tm : Timer) : (s.delayReturned ms late tm).busy = s.busy := rfl
@[simp] theorem State.delayReturned_upc (ms : BitVec 16) (late : Rat) (tm : Timer) : (s.delayReturned ms late tm).upc = s.upc := rfl
@[simp] theorem State.delayReturned_op (ms : BitVec 16) (late : Rat) (tm : Timer) : (s.delayReturned ms late tm).op = s.op := rfl
@[simp] theorem State.delayReturned_fault (ms : BitVec 16) (late : Rat) (tm : Timer) : (s.delayReturned ms late tm).fault = s.fault := rfl
@[simp] theorem State.delayReturned_temp (ms : BitVec 16) (late : Rat) (tm : Timer) : (s.delayReturned ms late tm).temp = s.temp := rfl
@[simp] theorem State.delayReturned_txt (ms : BitVec 16) (late : Rat) (tm : Timer) : (s.delayReturned ms late tm).txt = s.txt := rfl
@[simp] theorem State.delayReturned_pending (ms : BitVec 16) (late : Rat) (tm : Timer) : (s.delayReturned ms late tm).pending = none := rfl
@[simp] theorem State.delayReturned_resp (ms : BitVec 16) (late : Rat) (tm : Timer) : (s.delayReturned ms late tm).resp = s.resp := rfl
@[simp] theorem State.delayReturned_trace (ms : BitVec 16) (late : Rat) (tm : Timer) : (s.delayReturned ms late tm).trace = s.trace := rfl
@[simp] theorem State.delayReturned_now (ms : BitVec 16) (late : Rat) (tm : Timer) : (s.delayReturned ms late tm).now = s.now + ((ms.toNat : Rat) + late) := rfl
@[simp] theorem State.delayReturned_host (ms : BitVec 16) (late : Rat) (tm : Timer) : (s.delayReturned ms late tm).host = s.host := rfl
@[simp] theorem State.delayReturned_timer (ms : BitVec 16) (late : Rat) (tm : Timer) : (s.delayReturned ms late tm).timer = tm := rfl
@[simp] theorem State.delayReturned_rst (ms : BitVec 16) (late : Rat) (tm : Timer) : (s.delayReturned ms late tm).rst = s.rst := rfl

/-! ## `respond` -/

@[simp] theorem State.respond_lines (r : Response) : (s.respond r).lines = s.lines := rfl
@[simp] theorem State.respond_cs (r : Response) : (s.respond r).cs = s.cs := rfl
@[simp] theorem State.respond_busy (r : Response) : (s.respond r).busy = s.busy := rfl
@[simp] theorem State.respond_upc (r : Response) : (s.respond r).upc = s.upc := rfl
@[simp] theorem State.respond_op (r : Response) : (s.respond r).op = s.op := rfl
@[simp] theorem State.respond_fault (r : Response) : (s.respond r).fault = s.fault := rfl
@[simp] theorem State.respond_temp (r : Response) : (s.respond r).temp = s.temp := rfl
@[simp] theorem State.respond_txt (r : Response) : (s.respond r).txt = s.txt := rfl
@[simp] theorem State.respond_pending (r : Response) : (s.respond r).pending = s.pending := rfl
@[simp] theorem State.respond_resp (r : Response) : (s.respond r).resp = some r := rfl
@[simp] theorem State.respond_trace (r : Response) : (s.respond r).trace = s.trace := rfl
@[simp] theorem State.respond_now (r : Response) : (s.respond r).now = s.now := rfl
@[simp] theorem State.respond_host (r : Response) : (s.respond r).host = s.host := rfl
@[simp] theorem State.respond_timer (r : Response) : (s.respond r).timer = s.timer := rfl
@[simp] theorem State.respond_rst (r : Response) : (s.respond r).rst = s.rst := rfl

/-! ## `complete` -/

@[simp] theorem State.complete_lines : (s.complete).lines = s.lines := rfl
@[simp] theorem State.complete_cs : (s.complete).cs = s.cs := rfl
@[simp] theorem State.complete_busy : (s.complete).busy = false := rfl
@[simp] theorem State.complete_upc : (s.complete).upc = s.upc := rfl
@[simp] theorem State.complete_op : (s.complete).op = s.op := rfl
@[simp] theorem State.complete_fault : (s.complete).fault = s.fault := rfl
@[simp] theorem State.complete_temp : (s.complete).temp = s.temp := rfl
@[simp] theorem State.complete_txt : (s.complete).txt = s.txt := rfl
@[simp] theorem State.complete_pending : (s.complete).pending = s.pending := rfl
@[simp] theorem State.complete_resp : (s.complete).resp = some ⟨none, none⟩ := rfl
@[simp] theorem State.complete_trace : (s.complete).trace = s.trace := rfl
@[simp] theorem State.complete_now : (s.complete).now = s.now := rfl
@[simp] theorem State.complete_host : (s.complete).host = s.host := rfl
@[simp] theorem State.complete_timer : (s.complete).timer = s.timer := rfl
@[simp] theorem State.complete_rst : (s.complete).rst = s.rst := rfl

/-! ## `raiseFault` -/

@[simp] theorem State.raiseFault_lines (c : FaultCode) : (s.raiseFault c).lines = s.lines := rfl
@[simp] theorem State.raiseFault_cs (c : FaultCode) : (s.raiseFault c).cs = s.cs := rfl
@[simp] theorem State.raiseFault_busy (c : FaultCode) : (s.raiseFault c).busy = s.busy := rfl
@[simp] theorem State.raiseFault_upc (c : FaultCode) : (s.raiseFault c).upc = s.upc := rfl
@[simp] theorem State.raiseFault_op (c : FaultCode) : (s.raiseFault c).op = s.op := rfl
@[simp] theorem State.raiseFault_fault (c : FaultCode) : (s.raiseFault c).fault = some (s.fault.getD c) := rfl
@[simp] theorem State.raiseFault_temp (c : FaultCode) : (s.raiseFault c).temp = s.temp := rfl
@[simp] theorem State.raiseFault_txt (c : FaultCode) : (s.raiseFault c).txt = s.txt := rfl
@[simp] theorem State.raiseFault_pending (c : FaultCode) : (s.raiseFault c).pending = s.pending := rfl
@[simp] theorem State.raiseFault_resp (c : FaultCode) : (s.raiseFault c).resp = some ⟨some c, none⟩ := rfl
@[simp] theorem State.raiseFault_trace (c : FaultCode) : (s.raiseFault c).trace = s.trace := rfl
@[simp] theorem State.raiseFault_now (c : FaultCode) : (s.raiseFault c).now = s.now := rfl
@[simp] theorem State.raiseFault_host (c : FaultCode) : (s.raiseFault c).host = s.host := rfl
@[simp] theorem State.raiseFault_timer (c : FaultCode) : (s.raiseFault c).timer = s.timer := rfl
@[simp] theorem State.raiseFault_rst (c : FaultCode) : (s.raiseFault c).rst = s.rst := rfl

/-! ## `tick` -/

@[simp] theorem State.tick_lines : (s.tick).lines = s.lines := rfl
@[simp] theorem State.tick_cs : (s.tick).cs = s.cs := rfl
@[simp] theorem State.tick_busy : (s.tick).busy = s.busy := rfl
@[simp] theorem State.tick_upc : (s.tick).upc = s.upc := rfl
@[simp] theorem State.tick_op : (s.tick).op = s.op := rfl
@[simp] theorem State.tick_fault : (s.tick).fault = s.fault := rfl
@[simp] theorem State.tick_temp : (s.tick).temp = s.temp := rfl
@[simp] theorem State.tick_txt : (s.tick).txt = s.txt := rfl
@[simp] theorem State.tick_pending : (s.tick).pending = s.pending := rfl
@[simp] theorem State.tick_resp : (s.tick).resp = s.resp := rfl
@[simp] theorem State.tick_trace : (s.tick).trace = s.trace := rfl
@[simp] theorem State.tick_now : (s.tick).now = s.now := rfl
@[simp] theorem State.tick_host : (s.tick).host = s.host := rfl
@[simp] theorem State.tick_timer : (s.tick).timer = s.timer := rfl
@[simp] theorem State.tick_rst : (s.tick).rst = s.rst.tail := rfl

/-! ## `begin` -/

@[simp] theorem State.begin_lines (i : Instr) (text : List Byte) : (s.begin i text).lines = s.lines := rfl
@[simp] theorem State.begin_cs (i : Instr) (text : List Byte) : (s.begin i text).cs = s.cs := rfl
@[simp] theorem State.begin_busy (i : Instr) (text : List Byte) : (s.begin i text).busy = true := rfl
@[simp] theorem State.begin_upc (i : Instr) (text : List Byte) : (s.begin i text).upc = 0 := rfl
@[simp] theorem State.begin_op (i : Instr) (text : List Byte) : (s.begin i text).op = ⟨i, text⟩ := rfl
@[simp] theorem State.begin_fault (i : Instr) (text : List Byte) : (s.begin i text).fault = s.fault := rfl
@[simp] theorem State.begin_temp (i : Instr) (text : List Byte) : (s.begin i text).temp = s.temp := rfl
@[simp] theorem State.begin_txt (i : Instr) (text : List Byte) : (s.begin i text).txt = s.txt := rfl
@[simp] theorem State.begin_pending (i : Instr) (text : List Byte) : (s.begin i text).pending = s.pending := rfl
@[simp] theorem State.begin_resp (i : Instr) (text : List Byte) : (s.begin i text).resp = none := rfl
@[simp] theorem State.begin_trace (i : Instr) (text : List Byte) : (s.begin i text).trace = s.trace := rfl
@[simp] theorem State.begin_now (i : Instr) (text : List Byte) : (s.begin i text).now = s.now := rfl
@[simp] theorem State.begin_host (i : Instr) (text : List Byte) : (s.begin i text).host = s.host := rfl
@[simp] theorem State.begin_timer (i : Instr) (text : List Byte) : (s.begin i text).timer = s.timer := rfl
@[simp] theorem State.begin_rst (i : Instr) (text : List Byte) : (s.begin i text).rst = s.rst := rfl

/-! ## `accept` -/

@[simp] theorem State.accept_lines (i : Instr) (text : List Byte) : (s.accept i text).lines = s.lines := by
  unfold State.accept; split <;> rfl
@[simp] theorem State.accept_cs (i : Instr) (text : List Byte) : (s.accept i text).cs = s.cs := by
  unfold State.accept; split <;> rfl
@[simp] theorem State.accept_upc (i : Instr) (text : List Byte) : (s.accept i text).upc = 0 := by
  unfold State.accept; split <;> rfl
@[simp] theorem State.accept_op (i : Instr) (text : List Byte) : (s.accept i text).op = ⟨i, text⟩ := by
  unfold State.accept; split <;> rfl
@[simp] theorem State.accept_fault (i : Instr) (text : List Byte) : (s.accept i text).fault = s.fault := by
  unfold State.accept; split <;> rfl
@[simp] theorem State.accept_temp (i : Instr) (text : List Byte) : (s.accept i text).temp = s.temp := by
  unfold State.accept; split <;> rfl
@[simp] theorem State.accept_txt (i : Instr) (text : List Byte) : (s.accept i text).txt = s.txt := by
  unfold State.accept; split <;> rfl
@[simp] theorem State.accept_pending (i : Instr) (text : List Byte) : (s.accept i text).pending = s.pending := by
  unfold State.accept; split <;> rfl
@[simp] theorem State.accept_trace (i : Instr) (text : List Byte) : (s.accept i text).trace = s.trace := by
  unfold State.accept; split <;> rfl
@[simp] theorem State.accept_now (i : Instr) (text : List Byte) : (s.accept i text).now = s.now := by
  unfold State.accept; split <;> rfl
@[simp] theorem State.accept_host (i : Instr) (text : List Byte) : (s.accept i text).host = s.host := by
  unfold State.accept; split <;> rfl
@[simp] theorem State.accept_timer (i : Instr) (text : List Byte) : (s.accept i text).timer = s.timer := by
  unfold State.accept; split <;> rfl
@[simp] theorem State.accept_rst (i : Instr) (text : List Byte) : (s.accept i text).rst = s.rst := by
  unfold State.accept; split <;> rfl

/-! ## `advance` -/

@[simp] theorem State.advance_lines : (s.advance).lines = s.lines := rfl
@[simp] theorem State.advance_cs : (s.advance).cs = csAfter s.op (s.upc + 1) s.cs := rfl
@[simp] theorem State.advance_busy : (s.advance).busy = s.busy := rfl
@[simp] theorem State.advance_upc : (s.advance).upc = s.upc + 1 := rfl
@[simp] theorem State.advance_op : (s.advance).op = s.op := rfl
@[simp] theorem State.advance_fault : (s.advance).fault = s.fault := rfl
@[simp] theorem State.advance_temp : (s.advance).temp = s.temp := rfl
@[simp] theorem State.advance_txt : (s.advance).txt = s.txt := rfl
@[simp] theorem State.advance_pending : (s.advance).pending = s.pending := rfl
@[simp] theorem State.advance_resp : (s.advance).resp = s.resp := rfl
@[simp] theorem State.advance_trace : (s.advance).trace = s.trace := rfl
@[simp] theorem State.advance_now : (s.advance).now = s.now := rfl
@[simp] theorem State.advance_host : (s.advance).host = s.host := rfl
@[simp] theorem State.advance_timer : (s.advance).timer = s.timer := rfl
@[simp] theorem State.advance_rst : (s.advance).rst = s.rst := rfl

/-! ## `retire` -/

@[simp] theorem State.retire_lines : (s.retire).lines = s.lines := by
  unfold State.retire; split <;> rfl
@[simp] theorem State.retire_cs : (s.retire).cs = csAfter s.op (s.upc + 1) s.cs := by
  unfold State.retire; split <;> rfl
@[simp] theorem State.retire_upc : (s.retire).upc = s.upc + 1 := by
  unfold State.retire; split <;> rfl
@[simp] theorem State.retire_op : (s.retire).op = s.op := by
  unfold State.retire; split <;> rfl
@[simp] theorem State.retire_fault : (s.retire).fault = s.fault := by
  unfold State.retire; split <;> rfl
@[simp] theorem State.retire_temp : (s.retire).temp = s.temp := by
  unfold State.retire; split <;> rfl
@[simp] theorem State.retire_txt : (s.retire).txt = s.txt := by
  unfold State.retire; split <;> rfl
@[simp] theorem State.retire_pending : (s.retire).pending = s.pending := by
  unfold State.retire; split <;> rfl
@[simp] theorem State.retire_trace : (s.retire).trace = s.trace := by
  unfold State.retire; split <;> rfl
@[simp] theorem State.retire_now : (s.retire).now = s.now := by
  unfold State.retire; split <;> rfl
@[simp] theorem State.retire_host : (s.retire).host = s.host := by
  unfold State.retire; split <;> rfl
@[simp] theorem State.retire_timer : (s.retire).timer = s.timer := by
  unfold State.retire; split <;> rfl
@[simp] theorem State.retire_rst : (s.retire).rst = s.rst := by
  unfold State.retire; split <;> rfl

/-- An accepted operation is in progress unless its micro-program is empty. -/
theorem State.accept_busy (i : Instr) (text : List Byte) :
    (s.accept i text).busy = decide (uprog ⟨i, text⟩ ≠ []) := by
  unfold State.accept
  split <;> simp_all

/-- Accepting withdraws the last response; an empty micro-program is answered at once. -/
theorem State.accept_resp (i : Instr) (text : List Byte) :
    (s.accept i text).resp = if uprog ⟨i, text⟩ = [] then some ⟨none, none⟩ else none := by
  unfold State.accept
  split <;> simp_all

/-- The operation stays in progress until the last micro-operation has completed. -/
theorem State.retire_busy :
    s.retire.busy = if s.upc + 1 = (uprog s.op).length then false else s.busy := by
  unfold State.retire
  split <;> simp_all

/-- `done` comes with the last micro-operation. -/
theorem State.retire_resp :
    s.retire.resp = if s.upc + 1 = (uprog s.op).length then some ⟨none, none⟩ else s.resp := by
  unfold State.retire
  split <;> simp_all

end Sys2Proof.Machine
end

