-- ==== Sys2Proof/Laws/Ops.lean ====
section
/-! SUPPORT. What each shared operation can do, said once: the micro-operations, the timing collaborator, running a
micro-program, the checks on a request. -/

namespace Sys2Proof.Machine

/-! ## Outcomes -/

@[simp] theorem andThen_next (s : State) (f : State → Result) : andThen (.next s) f = f s := rfl

@[simp] theorem andThen_refused (x : Refusal) (f : State → Result) : andThen (.refused x) f = .refused x := rfl

/-- A next state comes only through a next state. -/
theorem andThen_eq_next {r : Result} {f : State → Result} {t : State} (h : andThen r f = .next t) :
    ∃ s, r = .next s ∧ f s = .next t := by
  cases r with
  | next s => exact ⟨s, rfl, h⟩
  | fault x => cases x
  | refused x => cases h

/-! ## Lines -/

/-- The multiplexer writes the line it names and no other (R100, R131). -/
theorem Lines.get_put (L : Lines) (l l' : Line) (v : Level) :
    (L.put l v).get l' = if l' = l then latchOf v else L.get l' := by
  cases l <;> cases l' <;> rfl

theorem Lines.after_append (L : Lines) (us vs : List MicroOp) :
    L.after (us ++ vs) = (L.after us).after vs := by
  induction us generalizing L with
  | nil => rfl
  | cons u us ih => cases u <;> exact ih _

theorem requestedMs_append (us vs : List MicroOp) : requestedMs (us ++ vs) = requestedMs us + requestedMs vs := by
  induction us with
  | nil => simp [requestedMs]
  | cons u us ih => cases u <;> simp [requestedMs, ih, Nat.add_assoc]

/-! ## Micro-operations -/

theorem performSet_of_wellFormed {l : Line} {v : Level} (h : (MicroOp.set l v).wellFormed = true) (s : State) :
    performSet l v s = .next (s.emitSet l v) := by
  simp [performSet, h]

theorem performDelay_of_wellFormed {ms : BitVec 7} (h : (MicroOp.delay ms).wellFormed = true) (s : State) :
    performDelay ms s = .next (s.emitDelay ms) := by
  simp [performDelay, h]

/-- A `SET` that answers a next state has driven its line and recorded it, and nothing else. -/
theorem performSet_eq_next {l : Line} {v : Level} {s t : State} (h : performSet l v s = .next t) :
    t = s.emitSet l v := by
  unfold performSet at h
  split at h <;> cases h
  rfl

/-- A `DELAY` that answers a next state is recorded and pending, and nothing else. -/
theorem performDelay_eq_next {ms : BitVec 7} {s t : State} (h : performDelay ms s = .next t) :
    t = s.emitDelay ms := by
  unfold performDelay at h
  split at h <;> cases h
  rfl

/-! ## The timing collaborator -/

/-- It never returns early, and it hangs when it would have hung (R270). -/
theorem Timer.answer_spec {t t' : Timer} {late : Rat} (h : t.answer = some (late, t')) :
    0 ≤ late ∧ t'.stalls = t.stalls := by
  unfold Timer.answer at h
  split at h <;> cases h
  exact ⟨le_max_right _ _, rfl⟩

/-- One that does not stall answers. -/
theorem Timer.answer_isSome {t : Timer} (h : t.stalls = false) : ∃ a, t.answer = some a := by
  have hn : t.hangsAt = none := by simpa [Timer.stalls] using h
  exact ⟨_, by simp [Timer.answer, Timer.hung, hn]; rfl⟩

/-- A delay waited out has passed at least the time asked for, and only `now`, the collaborator and the pending delay
have changed (R132). -/
theorem State.awaitDelay_eq_some {s t : State} {ms : BitVec 16} (h : s.awaitDelay ms = some t) :
    ∃ late tm, 0 ≤ late ∧ tm.stalls = s.timer.stalls ∧ t = s.delayReturned ms late tm := by
  unfold State.awaitDelay at h
  cases ha : s.timer.answer with
  | none => simp [ha] at h
  | some a =>
    obtain ⟨h0, h1⟩ := Timer.answer_spec (t' := a.2) (late := a.1) ha
    refine ⟨a.1, a.2, h0, h1, ?_⟩
    simpa [ha] using h.symm

/-- Some return comes when the collaborator does not stall. -/
theorem State.awaitDelay_isSome {s : State} (h : s.timer.stalls = false) (ms : BitVec 16) :
    ∃ t, s.awaitDelay ms = some t := by
  obtain ⟨a, ha⟩ := Timer.answer_isSome h
  exact ⟨s.delayReturned ms a.1 a.2, by simp [State.awaitDelay, ha]⟩

/-! ## Running a micro-program -/

/-- What running micro-operations to completion changes: the lines as their `SET`s say, the trace by exactly them,
and `now` by at least the time they ask for. Everything else but the collaborator and the pending delay is as it was. -/
structure Performed (s t : State) (us : List MicroOp) : Prop where
  eq : t = { s with lines := s.lines.after us, trace := s.trace ++ us, now := t.now, timer := t.timer,
                    pending := t.pending }
  pending : s.pending = none → t.pending = none
  time : s.now + (requestedMs us : Rat) ≤ t.now
  stalls : t.timer.stalls = s.timer.stalls

/-- Well-formed micro-operations run to completion when the timing collaborator does not stall. -/
theorem runMicroOps_performs {us : List MicroOp} (hus : ∀ u ∈ us, u.wellFormed = true) {s : State}
    (hs : s.timer.stalls = false) : ∃ t, runMicroOps us s = .next t ∧ Performed s t us := by
  induction us generalizing s with
  | nil => exact ⟨s, rfl, by simp [Lines.after], id, by simp [requestedMs], rfl⟩
  | cons u us ih =>
    have hu := hus u (by simp)
    have hus' : ∀ u ∈ us, u.wellFormed = true := fun u h => hus u (by simp [h])
    cases u with
    | set l v =>
      obtain ⟨t, ht, hp⟩ := ih hus' (s := s.emitSet l v) hs
      refine ⟨t, by simp [runMicroOps, performSet_of_wellFormed hu, ht], ?_, hp.pending, hp.time, hp.stalls⟩
      simpa [Lines.after] using hp.eq
    | delay ms =>
      obtain ⟨r, hr⟩ := State.awaitDelay_isSome (s := s.emitDelay ms) hs (ms.setWidth 16)
      obtain ⟨late, tm, h0, h1, rfl⟩ := State.awaitDelay_eq_some hr
      obtain ⟨t, ht, hp⟩ := ih hus' (s := (s.emitDelay ms).delayReturned (ms.setWidth 16) late tm)
        (by simpa using h1.trans hs)
      refine ⟨t, by simp [runMicroOps, performDelay_of_wellFormed hu, hr, ht], ?_, fun _ => hp.pending rfl, ?_,
        by simpa using hp.stalls.trans h1⟩
      · have := hp.eq
        simpa [Lines.after] using this
      · have h2 := hp.time
        have h3 : (ms.setWidth 16).toNat = ms.toNat := by simp; omega
        simp only [State.delayReturned_now, State.emitDelay_now, h3] at h2
        simp only [requestedMs, Nat.cast_add]
        linarith

/-! ## The checks on a request -/

/-- A bus operation requested of an idle block without a fault, and with none of its own, is accepted. -/
theorem busRequest_accepts {go : State → State} {s : State} (hb : s.busy = false) (hf : s.fault = none) :
    busRequest none go s = .next (go s) := by
  simp [busRequest, hb, hf]

/-- A faulted block answers its stored code and does nothing (R258). -/
theorem busRequest_faulted {own : Option FaultCode} {go : State → State} {s : State} {c : FaultCode}
    (hb : s.busy = false) (hf : s.fault = some c) :
    busRequest own go s = .next (s.respond ⟨some c, none⟩) := by
  simp [busRequest, hb, hf]

/-- An operation's own fault is entered (R256). -/
theorem busRequest_raises {go : State → State} {s : State} {c : FaultCode} (hb : s.busy = false)
    (hf : s.fault = none) : busRequest (some c) go s = .next (s.raiseFault c) := by
  simp [busRequest, hb, hf]

/-- Everything a bus request can do when it answers a next state. -/
theorem busRequest_eq_next {own : Option FaultCode} {go : State → State} {s t : State}
    (h : busRequest own go s = .next t) :
    s.busy = false ∧
      ((∃ c, s.fault = some c ∧ t = s.respond ⟨some c, none⟩) ∨
       (∃ c, s.fault = none ∧ own = some c ∧ t = s.raiseFault c) ∨
       (s.fault = none ∧ own = none ∧ t = go s)) := by
  unfold busRequest at h
  split at h
  · cases h
  · rename_i hb
    refine ⟨by simpa using hb, ?_⟩
    split at h
    · rename_i c hf
      cases h
      exact .inl ⟨c, hf, rfl⟩
    · rename_i hf
      split at h
      · rename_i c
        cases h
        exact .inr (.inl ⟨c, hf, rfl, rfl⟩)
      · cases h
        exact .inr (.inr ⟨hf, rfl, rfl⟩)

end Sys2Proof.Machine
end

