-- ==== Sys2Proof/Laws/MicroProgram.lean ====
section
/-! SUPPORT. What micro-programs are made of: every one of a well-formed instruction holds only micro-operations the
spec gives (30_encoding.md R103), and how long they are. -/

namespace Sys2Proof.Machine

theorem setWellFormed_of_ne_bl {l : Line} (h : l ≠ .bl) (v : Level) : (MicroOp.set l v).wellFormed = true := by
  cases l <;> first | rfl | exact absurd rfl h

theorem latchProgram_wellFormed (n : Nibble) : ∀ u ∈ latchProgram n, u.wellFormed = true := by
  simp [latchProgram, MicroOp.wellFormed]

theorem sendByteProgram_wellFormed (b : Byte) : ∀ u ∈ sendByteProgram b, u.wellFormed = true := by
  intro u hu
  rcases List.mem_append.1 hu with h | h <;> exact latchProgram_wellFormed _ u h

theorem commandProgram_wellFormed (b : Byte) : ∀ u ∈ commandProgram b, u.wellFormed = true := by
  intro u hu
  rcases List.mem_append.1 hu with h | h
  · rcases List.mem_cons.1 h with rfl | h
    · rfl
    · exact sendByteProgram_wellFormed b u h
  · split at h <;> simp at h
    subst h
    rfl

theorem writeDataProgram_wellFormed (b : Byte) : ∀ u ∈ writeDataProgram b, u.wellFormed = true := by
  intro u hu
  rcases List.mem_cons.1 hu with rfl | h
  · rfl
  · exact sendByteProgram_wellFormed b u h

theorem setPositionProgram_wellFormed (row col : Byte) :
    ∀ u ∈ setPositionProgram row col, u.wellFormed = true := by
  unfold setPositionProgram
  split
  · exact commandProgram_wellFormed _
  · simp

theorem printProgram_wellFormed (row col : Byte) (text : List Byte) :
    ∀ u ∈ printProgram row col text, u.wellFormed = true := by
  unfold printProgram
  split
  · intro u hu
    rcases List.mem_append.1 hu with h | h
    · exact commandProgram_wellFormed _ u h
    · obtain ⟨b, -, h⟩ := List.mem_flatMap.1 h
      exact writeDataProgram_wellFormed b u h
  · simp

theorem initForcing_wellFormed : ∀ u ∈ initForcing, u.wellFormed = true := by
  simp [initForcing, latchProgram, MicroOp.wellFormed]

theorem initConfigure_wellFormed : ∀ u ∈ initConfigure, u.wellFormed = true := by
  intro u hu
  simp only [initConfigure, List.mem_append] at hu
  rcases hu with ((h | h) | h) | h <;> exact commandProgram_wellFormed _ u h

/-- `INIT` drives the backlight line only on a block that has one (R35, R166). -/
theorem initProgram_wellFormed : ∀ u ∈ initProgram Config.hasBacklight, u.wellFormed = true := by
  intro u hu
  simp only [initProgram, List.mem_append] at hu
  rcases hu with (h | h) | h
  · exact initForcing_wellFormed u h
  · exact initConfigure_wellFormed u h
  · split at h
    · simp only [List.mem_singleton] at h
      subst h
      simpa [MicroOp.wellFormed] using ‹_›
    · simp at h

/-- The micro-program of a well-formed instruction holds no reserved micro-operation (R103, U12). -/
theorem uprog_wellFormed {op : OpLatch} (h : op.instr.wellFormed = true) :
    ∀ u ∈ uprog op, u.wellFormed = true := by
  obtain ⟨i, text⟩ := op
  cases i with
  | init => exact initProgram_wellFormed
  | command b => exact commandProgram_wellFormed b
  | writeData b => exact writeDataProgram_wellFormed b
  | setPosition row col => exact setPositionProgram_wellFormed row col
  | print row col len => exact printProgram_wellFormed row col text
  | clear => exact commandProgram_wellFormed 0x01
  | convert code => simp [uprog, uprogWith]
  | illegal w => simp [uprog, uprogWith]
  | set l v => simpa [uprog, uprogWith, Instr.wellFormed] using h
  | delay ms => simpa [uprog, uprogWith, Instr.wellFormed] using h
  | latch n => exact latchProgram_wellFormed n
  | sendByte b => exact sendByteProgram_wellFormed b
  | nibWake => exact latchProgram_wellFormed 0x3
  | nib4Bit => exact latchProgram_wellFormed 0x2
  | cmdFunctionSet => exact commandProgram_wellFormed 0x28
  | cmdDisplayCtrl => exact commandProgram_wellFormed 0x0C
  | cmdClear => exact commandProgram_wellFormed 0x01
  | cmdEntryMode => exact commandProgram_wellFormed 0x06
  | cmdAddrRow0 c => exact commandProgram_wellFormed _
  | cmdAddrRow1 c => exact commandProgram_wellFormed _
  | dataByte d => exact writeDataProgram_wellFormed d

@[simp] theorem latchProgram_length (n : Nibble) : (latchProgram n).length = 8 := rfl

@[simp] theorem sendByteProgram_length (b : Byte) : (sendByteProgram b).length = 16 := rfl

@[simp] theorem writeDataProgram_length (b : Byte) : (writeDataProgram b).length = 17 := rfl

theorem commandProgram_length (b : Byte) : (commandProgram b).length = if b = 0x01 then 18 else 17 := by
  unfold commandProgram
  split <;> rfl

theorem commandProgram_ne_nil (b : Byte) : commandProgram b ≠ [] := by
  simp [commandProgram]

end Sys2Proof.Machine
end

