-- ==== Sys2Proof/Laws/PerInstr.lean ====
section
/-! SUPPORT. What holds of every instruction as syntax: its encoding lies in its own row of spec/opcode_table.json,
that row's fixed bits and its number of words (30_encoding.md R91 to R106, R111). -/

namespace Sys2Proof.Laws

/-- The fixed bits of the row an instruction belongs to, read off its encoding. -/
def inRow : Instr → Code → Prop
  | .init, .request w => w &&& 0xFFFFFFFF = 0x10000000
  | .command _, .request w => w &&& 0xFFFFFF00 = 0x20000000
  | .writeData _, .request w => w &&& 0xFFFFFF00 = 0x30000000
  | .setPosition _ _, .request w => w &&& 0xFF0000FF = 0x40000000
  | .print _ _ _, .request w => w &&& 0xFF000000 = 0x50000000
  | .clear, .request w => w &&& 0xFFFFFFFF = 0x60000000
  | .convert _, .request w => w &&& 0xFFFFF000 = 0x70000000
  | .illegal _, .request w => requestIllegal w = true
  | .set _ _, .uops [w] => w &&& 0x8E = 0x00
  | .delay _, .uops [w] => w &&& 0x80 = 0x80
  | .latch _, .uops ws => ws.length = 8
  | .sendByte _, .uops ws => ws.length = 16
  | .nibWake, .busNibble n => n = 0x3
  | .nib4Bit, .busNibble n => n = 0x2
  | .cmdFunctionSet, .busByte rs b => rs = .l ∧ b = 40
  | .cmdDisplayCtrl, .busByte rs b => rs = .l ∧ b = 12
  | .cmdClear, .busByte rs b => rs = .l ∧ b = 1
  | .cmdEntryMode, .busByte rs b => rs = .l ∧ b = 6
  | .cmdAddrRow0 c, .busByte rs b => rs = .l ∧ hiNibble b = 8 ∧ loNibble b = c
  | .cmdAddrRow1 c, .busByte rs b => rs = .l ∧ hiNibble b = 12 ∧ loNibble b = c
  | .dataByte d, .busByte rs b => rs = .h ∧ b = d
  | _, _ => False

namespace EncodesInRow

/-- A well-formed instruction's encoding lies in its own row. -/
def Statement (i : Instr) : Prop := i.wellFormed = true → inRow i (encode i)

/-- The bits above an operand do not depend on it. -/
theorem mask_append {n m : Nat} (a : BitVec n) (b : BitVec m) (x : BitVec n) :
    (a ++ b) &&& (x ++ 0#m) = (a &&& x) ++ 0#m := by
  rw [BitVec.and_append]
  simp

theorem init : Statement .init := fun _ => rfl

theorem command (b : Byte) : Statement (.command b) := fun _ =>
  show ((0x200000#24 : BitVec 24) ++ b) &&& (0xFFFFFF#24 ++ 0#8) = _ from
    (mask_append (m := 8) _ _ _).trans rfl

theorem writeData (b : Byte) : Statement (.writeData b) := fun _ =>
  show ((0x300000#24 : BitVec 24) ++ b) &&& (0xFFFFFF#24 ++ 0#8) = _ from
    (mask_append (m := 8) _ _ _).trans rfl

theorem setPosition (row col : Byte) : Statement (.setPosition row col) := fun _ => by
  show (((0x40#8 ++ row : BitVec 16) ++ col : BitVec 24) ++ 0#8 : BitVec 32) &&&
    (((0xFF#8 ++ 0#8 : BitVec 16) ++ 0#8 : BitVec 24) ++ 0xFF#8) = _
  rw [BitVec.and_append, mask_append, mask_append]
  rfl

theorem print (row col len : Byte) : Statement (.print row col len) := fun _ => by
  show (((0x50#8 ++ row : BitVec 16) ++ col : BitVec 24) ++ len : BitVec 32) &&&
    (((0xFF#8 ++ 0#8 : BitVec 16) ++ 0#8 : BitVec 24) ++ 0#8) = _
  rw [mask_append, mask_append, mask_append]
  rfl

theorem clear : Statement .clear := fun _ => rfl

theorem convert (code : SampleCode) : Statement (.convert code) := fun _ =>
  show ((0x70000#20 : BitVec 20) ++ code) &&& (0xFFFFF#20 ++ 0#12) = _ from
    (mask_append (m := 12) _ _ _).trans rfl

theorem illegal (w : RequestWord) : Statement (.illegal w) := id

theorem set (l : Line) (v : Level) : Statement (.set l v) := fun _ => by
  cases l <;> cases v <;> rfl

theorem delay (ms : BitVec 7) : Statement (.delay ms) := fun _ =>
  show ((1#1 : BitVec 1) ++ ms) &&& (1#1 ++ 0#7) = _ from (mask_append (m := 7) _ _ _).trans rfl

theorem latch (n : Nibble) : Statement (.latch n) := fun _ => rfl

theorem sendByte (b : Byte) : Statement (.sendByte b) := fun _ => rfl

theorem nibWake : Statement .nibWake := fun _ => rfl

theorem nib4Bit : Statement .nib4Bit := fun _ => rfl

theorem cmdFunctionSet : Statement .cmdFunctionSet := fun _ => ⟨rfl, rfl⟩

theorem cmdDisplayCtrl : Statement .cmdDisplayCtrl := fun _ => ⟨rfl, rfl⟩

theorem cmdClear : Statement .cmdClear := fun _ => ⟨rfl, rfl⟩

theorem cmdEntryMode : Statement .cmdEntryMode := fun _ => ⟨rfl, rfl⟩

theorem cmdAddrRow0 (c : Nibble) : Statement (.cmdAddrRow0 c) := fun _ =>
  ⟨rfl, by revert c; decide, by revert c; decide⟩

theorem cmdAddrRow1 (c : Nibble) : Statement (.cmdAddrRow1 c) := fun _ =>
  ⟨rfl, by revert c; decide, by revert c; decide⟩

theorem dataByte (d : Byte) : Statement (.dataByte d) := fun _ => ⟨rfl, rfl⟩

end EncodesInRow

end Sys2Proof.Laws
end

