-- ==== Sys2Proof/Laws/Step.lean ====
section
/-! SUPPORT. Everything one step can do, said once (00_scope.md R13): what later proofs take apart instead of the
step. -/

namespace Sys2Proof.Machine

/-- The cases of a step from `s` to `t`. -/
inductive StepCase (s t : State) : Prop where
  /-- the reset input -/
  | reset (hr : s.resetAsserted = true) (h : t = s.applyReset)
  /-- the timing collaborator, not returning -/
  | stalled (hr : s.resetAsserted = false) (p : PendingDelay) (hp : s.pending = some p)
      (ha : s.timer.answer = none) (h : t = s.tick)
  /-- the timing collaborator, returning to the sequencer -/
  | returned (hr : s.resetAsserted = false) (p : PendingDelay) (hp : s.pending = some p)
      (ho : p.owner = .sequencer) (late : Rat) (tm : Timer) (hl : 0 ≤ late)
      (h : t = (s.tick.delayReturned p.ms late tm).retire)
  /-- the timing collaborator, returning to the host -/
  | waited (hr : s.resetAsserted = false) (p : PendingDelay) (hp : s.pending = some p)
      (ho : p.owner = .host) (late : Rat) (tm : Timer) (hl : 0 ≤ late)
      (h : t = s.tick.delayReturned p.ms late tm)
  /-- the sequencer, past the end of the micro-program -/
  | ended (hr : s.resetAsserted = false) (hp : s.pending = none) (hb : s.busy = true)
      (hu : (uprog s.op)[s.upc]? = none) (h : t = s.tick.complete)
  /-- the sequencer performs a `SET` -/
  | setDone (hr : s.resetAsserted = false) (hp : s.pending = none) (hb : s.busy = true) (l : Line) (v : Level)
      (hu : (uprog s.op)[s.upc]? = some (.set l v)) (h : t = (s.tick.emitSet l v).retire)
  /-- the sequencer hands out a `DELAY` -/
  | delayHanded (hr : s.resetAsserted = false) (hp : s.pending = none) (hb : s.busy = true) (ms : BitVec 7)
      (hu : (uprog s.op)[s.upc]? = some (.delay ms)) (h : t = s.tick.emitDelay ms)
  /-- the host has nothing to do -/
  | idle (hr : s.resetAsserted = false) (hp : s.pending = none) (hb : s.busy = false) (hh : s.host = [])
      (h : t = s.tick)
  /-- the host presents a request -/
  | request (hr : s.resetAsserted = false) (hp : s.pending = none) (hb : s.busy = false) (w : RequestWord)
      (rest : List HostAct) (hh : s.host = .request w :: rest)
      (h : exec (decodeRequest w) { s.tick with host := rest } = .next t)
  /-- the host writes a byte of `TXT` -/
  | writeTxt (hr : s.resetAsserted = false) (hp : s.pending = none) (hb : s.busy = false) (a : BitVec 8) (b : Byte)
      (rest : List HostAct) (hh : s.host = .writeTxt a b :: rest)
      (h : t = { s.tick with host := rest, txt := Memory.write s.txt a.toNat b })
  /-- the host begins a wait -/
  | wait (hr : s.resetAsserted = false) (hp : s.pending = none) (hb : s.busy = false) (ms : BitVec 16)
      (rest : List HostAct) (hh : s.host = .wait ms :: rest)
      (h : t = { s.tick with host := rest, pending := some ⟨ms, .host⟩ })

/-- The sequencer's step, by what `uprog[upc]` is. -/
theorem sequencerStep_eq_next {s t : State} (hp : s.pending = none) (h : sequencerStep s = .next t) :
    ((uprog s.op)[s.upc]? = none ∧ t = s.complete) ∨
    (∃ l v, (uprog s.op)[s.upc]? = some (.set l v) ∧ t = (s.emitSet l v).retire) ∨
    (∃ ms, (uprog s.op)[s.upc]? = some (.delay ms) ∧ t = s.emitDelay ms) := by
  unfold sequencerStep at h
  split at h
  · rename_i hu
    cases h
    exact .inl ⟨hu, rfl⟩
  · rename_i u hu
    obtain ⟨r, hr, h⟩ := andThen_eq_next h
    cases u with
    | set l v =>
      obtain rfl := performSet_eq_next hr
      simp only [State.emitSet_pending, hp, Option.isSome_none, Bool.false_eq_true, if_false] at h
      cases h
      exact .inr (.inl ⟨l, v, hu, rfl⟩)
    | delay ms =>
      obtain rfl := performDelay_eq_next hr
      simp only [State.emitDelay_pending, Option.isSome_some, if_true] at h
      cases h
      exact .inr (.inr ⟨ms, hu, rfl⟩)

/-- Every step is one of the cases. -/
theorem step_cases {s t : State} (h : step s = .next t) : StepCase s t := by
  unfold step cycle at h
  split at h
  · rename_i hr
    cases h
    exact .reset hr rfl
  rename_i hr
  have hr : s.resetAsserted = false := by simpa using hr
  unfold agentStep at h
  split at h
  · rename_i p hp
    cases h
    cases ha : s.tick.awaitDelay p.ms with
    | none =>
      refine .stalled hr p hp ?_ (by simp [State.collaborator, ha])
      simpa [State.awaitDelay] using ha
    | some r =>
      obtain ⟨late, tm, hl, -, rfl⟩ := State.awaitDelay_eq_some ha
      cases ho : p.owner with
      | sequencer => exact .returned hr p hp ho late tm hl (by simp [State.collaborator, ha, ho])
      | host => exact .waited hr p hp ho late tm hl (by simp [State.collaborator, ha, ho])
  · rename_i hp
    split at h
    · rename_i hb
      rcases sequencerStep_eq_next hp h with ⟨hu, h⟩ | ⟨l, v, hu, h⟩ | ⟨ms, hu, h⟩
      · exact .ended hr hp hb hu h
      · exact .setDone hr hp hb l v hu h
      · exact .delayHanded hr hp hb ms hu h
    · rename_i hb
      have hb : s.busy = false := by simpa using hb
      unfold hostStep at h
      split at h
      · rename_i hh
        cases h
        exact .idle hr hp hb hh rfl
      · rename_i w rest hh
        exact .request hr hp hb w rest hh h
      · rename_i a b rest hh
        cases h
        exact .writeTxt hr hp hb a b rest hh rfl
      · rename_i ms rest hh
        cases h
        exact .wait hr hp hb ms rest hh rfl

/-- The cases of a request word executed in `s` (R255), `t` being the next state. -/
inductive RequestCase (s t : State) : Prop where
  /-- `CONVERT`, whatever the block's state -/
  | converted (code : SampleCode)
      (h : t = ({ s with temp := some (convertValue code) }).respond ⟨none, some (convertValue code)⟩)
  /-- a fault is entered -/
  | faulted (hb : s.busy = false) (c : FaultCode) (h : t = s.raiseFault c)
  /-- a faulted block refuses -/
  | halted (hb : s.busy = false) (c : FaultCode) (hf : s.fault = some c) (h : t = s.respond ⟨some c, none⟩)
  /-- `INIT` is accepted -/
  | initAccepted (hb : s.busy = false) (hf : s.fault = none) (hc : s.cs = .unknown)
      (h : t = ({ s with cs := .forcingEightBit }).accept .init [])
  /-- another bus operation is accepted -/
  | opAccepted (hb : s.busy = false) (hf : s.fault = none) (hc : s.cs = .configured) (i : Instr)
      (text : List Byte) (hi : isBusOperation i = true) (hn : i ≠ .init) (ht : text.length < 256)
      (h : t = s.accept i text)

theorem requestCase_of_bus {s t : State} {i : Instr} {text : List Byte} (hi : isBusOperation i = true)
    (hn : i ≠ .init) (ht : text.length < 256)
    (h : busRequest (busOpFault s.cs) (fun s => s.accept i text) s = .next t) : RequestCase s t := by
  obtain ⟨hb, ⟨c, hf, rfl⟩ | ⟨c, hf, hc, rfl⟩ | ⟨hf, hc, rfl⟩⟩ := busRequest_eq_next h
  · exact .halted hb c hf rfl
  · exact .faulted hb c rfl
  · refine .opAccepted hb hf ?_ i text hi hn ht rfl
    by_contra hne
    simp [busOpFault, hne] at hc

/-- A request word does one of these. -/
theorem request_cases {w : RequestWord} {s t : State} (h : exec (decodeRequest w) s = .next t) :
    RequestCase s t := by
  have illegal : ∀ {w : RequestWord}, exec (.illegal w) s = .next t → RequestCase s t := by
    intro w h
    simp only [exec, execIllegal] at h
    split at h
    · cases h
    · rename_i hb
      cases h
      exact .faulted (by simpa using hb) _ rfl
  unfold decodeRequest at h
  simp only at h
  split at h
  · split at h
    · simp only [exec, execInit] at h
      obtain ⟨hb, ⟨c, hf, rfl⟩ | ⟨c, hf, hc, rfl⟩ | ⟨hf, hc, rfl⟩⟩ := busRequest_eq_next h
      · exact .halted hb c hf rfl
      · exact .faulted hb c rfl
      · refine .initAccepted hb hf ?_ rfl
        by_contra hne
        simp [initFault, hne] at hc
    · exact illegal h
  split at h
  · split at h
    · exact requestCase_of_bus rfl (by simp) (by simp) h
    · exact illegal h
  split at h
  · split at h
    · exact requestCase_of_bus rfl (by simp) (by simp) h
    · exact illegal h
  split at h
  · split at h
    · exact requestCase_of_bus rfl (by simp) (by simp) h
    · exact illegal h
  split at h
  · split at h
    · refine requestCase_of_bus rfl (by simp) ?_ h
      simp only [printText, List.length_map, List.length_range]
      omega
    · exact illegal h
  split at h
  · split at h
    · exact requestCase_of_bus rfl (by simp) (by simp) h
    · exact illegal h
  split at h
  · split at h
    · cases h
      exact .converted _ rfl
    · exact illegal h
  · exact illegal h

end Sys2Proof.Machine
end

