-- ==== Sys2Proof/Laws/Run.lean ====
section
/-! SUPPORT. Runs: how reachability composes, and where the sequencer's steps lead from any position of a micro-program
(40_bus_primitives.md R130). -/

namespace Sys2Proof.Machine

/-! ## Reachability -/

theorem Reaches.refl (s : State) : Reaches s s := ⟨0, rfl⟩

theorem run_add {j : Nat} (k : Nat) {s t : State} (h : Host.Core.run core j s = .next t) :
    Host.Core.run core (j + k) s = Host.Core.run core k t := by
  induction j generalizing s with
  | zero =>
    cases h
    simp
  | succ j ih =>
    rw [Nat.add_right_comm]
    simp only [Host.Core.run] at h ⊢
    cases hs : core.step s with
    | next r =>
      simp only [hs] at h ⊢
      exact ih h
    | fault x => simp [hs] at h
    | refused x => simp [hs] at h

theorem Reaches.trans {r s t : State} (h : Reaches r s) (h' : Reaches s t) : Reaches r t := by
  obtain ⟨j, hj⟩ := h
  obtain ⟨k, hk⟩ := h'
  exact ⟨j + k, by rw [run_add k hj, hk]⟩

/-- One step, and then the rest. -/
theorem Reaches.head {r s t : State} (h : step r = .next s) (h' : Reaches s t) : Reaches r t := by
  obtain ⟨k, hk⟩ := h'
  refine ⟨k + 1, ?_⟩
  have : core.step r = .next s := h
  simp [Host.Core.run, this, hk]

/-! ## The reset input at rest -/

theorem State.tick_eq {s : State} (h : s.rst = []) : s.tick = s := by
  cases s
  simp_all [State.tick]

theorem State.resetAsserted_eq {s : State} (h : s.rst = []) : s.resetAsserted = false := by
  simp [State.resetAsserted, h]

/-! ## One micro-operation -/

/-- A `SET` at the sequencer's position takes one step. -/
theorem step_set {s : State} {l : Line} {v : Level} (hb : s.busy = true) (hp : s.pending = none) (hr : s.rst = [])
    (hw : (MicroOp.set l v).wellFormed = true) (hu : (uprog s.op)[s.upc]? = some (.set l v)) :
    step s = .next (s.emitSet l v).retire := by
  simp [step, cycle, State.resetAsserted_eq hr, State.tick_eq hr, agentStep, hp, hb, sequencerStep, hu,
    MicroOp.toInstr, exec, execSet, performSet_of_wellFormed hw]

/-- A `DELAY` at the sequencer's position is handed out in one step. -/
theorem step_delay {s : State} {ms : BitVec 7} (hb : s.busy = true) (hp : s.pending = none) (hr : s.rst = [])
    (hw : (MicroOp.delay ms).wellFormed = true) (hu : (uprog s.op)[s.upc]? = some (.delay ms)) :
    step s = .next (s.emitDelay ms) := by
  simp [step, cycle, State.resetAsserted_eq hr, State.tick_eq hr, agentStep, hp, hb, sequencerStep, hu,
    MicroOp.toInstr, exec, execDelay, performDelay_of_wellFormed hw]

/-- The return of the sequencer's delay takes one step. -/
theorem step_return {s t : State} {p : PendingDelay} (hp : s.pending = some p) (ho : p.owner = .sequencer)
    (hr : s.rst = []) (ha : s.awaitDelay p.ms = some t) : step s = .next t.retire := by
  simp [step, cycle, State.resetAsserted_eq hr, State.tick_eq hr, agentStep, hp, State.collaborator, ha, ho]

/-! ## The rest of a micro-program -/

/-- What the sequencer makes of `s` by performing `us`, the rest of its micro-program: `L` and `trace` by exactly `us`,
at least the time it asks for, `busy` back to 0 and `done`, `cs` as each completed position says. -/
structure Finished (s t : State) (us : List MicroOp) : Prop where
  eq : t = { s with lines := s.lines.after us, trace := s.trace ++ us, now := t.now, timer := t.timer, busy := false,
                    resp := some ⟨none, none⟩, upc := (uprog s.op).length, cs := t.cs }
  time : s.now + (requestedMs us : Rat) ≤ t.now
  stalls : t.timer.stalls = false
  cs : t.cs = (List.range us.length).foldl (fun c k => csAfter s.op (s.upc + 1 + k) c) s.cs

theorem Finished.of_retire {r t : State} {u : MicroOp} {us : List MicroOp} (h : Finished r.advance t us) :
    t = { r with lines := r.lines.after us, trace := r.trace ++ us, now := t.now, timer := t.timer, busy := false,
                 resp := some ⟨none, none⟩, upc := (uprog r.op).length, cs := t.cs } ∧
      t.cs = (List.range (u :: us).length).foldl (fun c k => csAfter r.op (r.upc + 1 + k) c) r.cs := by
  refine ⟨by simpa using h.eq, ?_⟩
  rw [h.cs]
  simp only [State.advance_op, State.advance_upc, State.advance_cs, List.length_cons, List.range_succ_eq_map,
    List.foldl_cons, List.foldl_map]
  congr 1
  funext c k
  congr 1
  omega

/-- Undisturbed, the sequencer performs the rest of its micro-program to the end. -/
theorem sequencer_runs {us : List MicroOp} {s : State} (hus : ∀ u ∈ us, u.wellFormed = true) (hb : s.busy = true)
    (hp : s.pending = none) (hr : s.rst = []) (ht : s.timer.stalls = false) (hu : (uprog s.op).drop s.upc = us)
    (hne : us ≠ []) : ∃ t, Reaches s t ∧ Finished s t us := by
  induction us generalizing s with
  | nil => exact absurd rfl hne
  | cons u us ih =>
    have hget : (uprog s.op)[s.upc]? = some u := by simpa [List.head?_drop] using congrArg List.head? hu
    have hdrop : (uprog s.op).drop (s.upc + 1) = us := by simpa [List.tail_drop] using congrArg List.tail hu
    have hlen : (uprog s.op).length = s.upc + 1 + us.length := by
      have h1 : s.upc < (uprog s.op).length := by
        by_contra h
        simp only [not_lt] at h
        rw [List.drop_eq_nil_of_le h] at hu
        cases hu
      have h2 := congrArg List.length hdrop
      simp only [List.length_drop] at h2
      omega
    -- what follows a completed micro-operation
    have after : ∀ r : State, r.op = s.op → r.upc = s.upc → r.busy = true → r.pending = none → r.rst = [] →
        r.timer.stalls = false → r.cs = s.cs →
        ∃ t, Reaches r.retire t ∧
          t = { r with lines := r.lines.after us, trace := r.trace ++ us, now := t.now, timer := t.timer,
                       busy := false, resp := some ⟨none, none⟩, upc := (uprog r.op).length, cs := t.cs } ∧
          r.now + (requestedMs us : Rat) ≤ t.now ∧ t.timer.stalls = false ∧
          t.cs = (List.range (u :: us).length).foldl (fun c k => csAfter s.op (s.upc + 1 + k) c) s.cs := by
      intro r h1 h2 h3 h4 h5 h6 h7
      by_cases hus0 : us = []
      · subst hus0
        have hl : r.upc + 1 = (uprog r.op).length := by
          rw [h1, h2, hlen]
          simp
        refine ⟨r.retire, Reaches.refl _, ?_, by simp [requestedMs], by simp [h6], by simp [h1, h2, h7]⟩
        simp only [State.retire, hl, if_true, Lines.after, List.append_nil]
        cases r
        simp_all [State.complete, State.advance, State.respond]
      · have hl : ¬r.upc + 1 = (uprog r.op).length := by
          rw [h1, h2, hlen]
          have := List.length_pos_iff.2 hus0
          omega
        have hrt : r.retire = r.advance := by simp [State.retire, hl]
        obtain ⟨t, hreach, hfin⟩ := ih (s := r.advance) (fun u h => hus u (by simp [h])) h3 h4 h5 h6
          (by simp [h1, h2, hdrop]) hus0
        obtain ⟨heq, hcs⟩ := hfin.of_retire (u := u)
        exact ⟨t, hrt ▸ hreach, heq, by simpa using hfin.time, hfin.stalls, by rw [hcs, h1, h2, h7]⟩
    cases u with
    | set l v =>
      obtain ⟨t, hreach, heq, htime, hst, hcs⟩ := after (s.emitSet l v) rfl rfl hb hp hr ht rfl
      exact ⟨t, .head (step_set hb hp hr (hus _ (by simp)) hget) hreach, by simpa [Lines.after] using heq,
        by simpa [requestedMs] using htime, hst, hcs⟩
    | delay ms =>
      obtain ⟨r, hret⟩ := State.awaitDelay_isSome (s := s.emitDelay ms) ht (ms.setWidth 16)
      have hstep2 := step_return (s := s.emitDelay ms) rfl rfl hr hret
      obtain ⟨late, tm, h0, h1, rfl⟩ := State.awaitDelay_eq_some hret
      obtain ⟨t, hreach, heq, htime, hst, hcs⟩ :=
        after ((s.emitDelay ms).delayReturned (ms.setWidth 16) late tm) rfl rfl hb rfl hr (h1.trans ht) rfl
      refine ⟨t, .head (step_delay hb hp hr (hus _ (by simp)) hget) (.head hstep2 hreach), ?_, ?_, hst, hcs⟩
      · simp only [State.delayReturned_op, State.emitDelay_op, State.delayReturned_lines] at heq
        rw [heq]
        simp [Lines.after, hp]
      · have h3 : (ms.setWidth 16).toNat = ms.toNat := by simp; omega
        simp only [State.delayReturned_now, State.emitDelay_now, h3] at htime
        simp only [requestedMs, Nat.cast_add]
        linarith

/-! ## `cs` over a whole micro-program (R37) -/

theorem initForcing_length : initForcing.length = 36 := by decide

theorem initConfigure_end : (initForcing ++ initConfigure).length = 105 := by decide

theorem initProgram_length (bl : Bool) : (initProgram bl).length = if bl then 106 else 105 := by
  cases bl <;> decide

/-- No operation but `INIT` changes `cs`. -/
theorem foldl_csAfter_of_ne {op : OpLatch} (h : op.instr ≠ .init) (ks : List Nat) (k : Nat) (cs : CtrlState) :
    ks.foldl (fun c j => csAfter op (k + j) c) cs = cs := by
  induction ks with
  | nil => rfl
  | cons a ks ih => simp [csAfter, h]

/-- `INIT` ends with `cs = Configured`, with a backlight and without. -/
theorem foldl_csAfter_init (bl : Bool) (text : List Byte) :
    (List.range (initProgram bl).length).foldl (fun c j => csAfter ⟨.init, text⟩ (0 + 1 + j) c) .forcingEightBit =
      .configured := by
  rw [initProgram_length]
  simp only [csAfter, if_true, initForcing_length, initConfigure_end]
  cases bl <;> decide

end Sys2Proof.Machine
end

