-- ==== Sys2Proof/Tests/Slice0.lean ====
section
/-! SUPPORT. Small tests, their expected results taken from the spec's text and its vectors (95_test_vectors.md), and
one witness for the hypotheses of each statement in Certificates/Slice0/Obligations.lean. -/

namespace Sys2Proof.Tests

open Sys2Proof.Machine

/-! ## Helpers -/

/-- What a result's next state shows; none when it stops. -/
def shows {α : Type} (r : Result) (f : State → α) : Option α :=
  match r with
  | .next s => some (f s)
  | .fault _ => none
  | .refused _ => none

/-- Reset, with the host about to present a request word. -/
def asking (w : RequestWord) : State := { State.reset with host := [.request w] }

/-- A block after its handshake, with the host about to present a request word. -/
def readyAsking (w : RequestWord) : State := { asking w with cs := .configured }

/-- A block after its handshake. -/
def configured : State := { State.reset with cs := .configured }

/-- A block that an operation before `INIT` has faulted (V33). -/
def faulted : State := { State.reset with fault := some .notConfigured }

/-- A block running an operation, at position `k`. -/
def running (i : Instr) (k : Nat) (cs : CtrlState) : State :=
  { State.reset with op := ⟨i, []⟩, busy := true, upc := k, cs := cs }

/-! ## Ill-formed terms are refused -/

theorem test_delay_zero_is_ill_formed : (Instr.delay 0).wellFormed = false := by decide
theorem test_init_word_is_not_illegal : (Instr.illegal 0x10000000).wellFormed = false := by decide
theorem test_print_word_is_not_illegal : (Instr.illegal 0x500000FF).wellFormed = false := by decide
theorem test_backlight_set_needs_the_line (v : Level) :
    (Instr.set .bl v).wellFormed = Config.hasBacklight := rfl
theorem test_pad_bit_is_illegal : (Instr.illegal 0x20000128).wellFormed = true := by decide

/-! ## Decoding: words written out from the encodings (R91 to R96, R101, R102, R106, R134) -/

theorem test_decode_init : decodeRequest 0b00010000000000000000000000000000 = .init := by decide
theorem test_decode_command : decodeRequest 0b00100000000000000000000000001100 = .command 0x0C := by decide
theorem test_decode_writeData : decodeRequest 0b00110000000000000000000001000001 = .writeData 0x41 := by decide
theorem test_decode_setPosition :
    decodeRequest 0b01000000000000011111111100000000 = .setPosition 1 255 := by decide
theorem test_decode_print : decodeRequest 0b01010000000000000001010000000001 = .print 0 20 1 := by decide
theorem test_decode_clear : decodeRequest 0b01100000000000000000000000000000 = .clear := by decide
theorem test_decode_convert : decodeRequest 0b01110000000000000000100000000000 = .convert 2048 := by decide
/-- V35, V35a to V35f. -/
theorem test_decode_illegal :
    [0x00000000, 0x80000000, 0xF0000000, 0x10000001, 0x20000128, 0x40010501, 0x51000001, 0x70001000].all
      (fun w : RequestWord => decide (decodeRequest w = .illegal w)) = true := by decide
theorem test_decode_set : decode (.uops [0b00100001]) = some (.set .d2 .h) := by decide
theorem test_decode_delay : decode (.uops [0b10010100]) = some (.delay 20) := by decide
/-- V11. -/
theorem test_decode_latch :
    decode (.uops [0x00, 0x11, 0x20, 0x31, 0x51, 0x81, 0x50, 0x81]) = some (.latch 0xA) := by decide
/-- V12. -/
theorem test_decode_sendByte :
    decode (.uops [0x00, 0x10, 0x21, 0x31, 0x51, 0x81, 0x50, 0x81, 0x01, 0x10, 0x21, 0x30, 0x51, 0x81, 0x50, 0x81]) =
      some (.sendByte 0xC5) := by decide
theorem test_decode_nibWake : decode (.busNibble 0b0011) = some .nibWake := by decide
theorem test_decode_nib4Bit : decode (.busNibble 0b0010) = some .nib4Bit := by decide
theorem test_decode_cmdFunctionSet : decode (.busByte .l 0b00101000) = some .cmdFunctionSet := by decide
theorem test_decode_cmdDisplayCtrl : decode (.busByte .l 0b00001100) = some .cmdDisplayCtrl := by decide
theorem test_decode_cmdClear : decode (.busByte .l 0b00000001) = some .cmdClear := by decide
theorem test_decode_cmdEntryMode : decode (.busByte .l 0b00000110) = some .cmdEntryMode := by decide
theorem test_decode_cmdAddrRow0 : decode (.busByte .l 0b10001111) = some (.cmdAddrRow0 15) := by decide
theorem test_decode_cmdAddrRow1 : decode (.busByte .l 0b11000101) = some (.cmdAddrRow1 5) := by decide
theorem test_decode_dataByte : decode (.busByte .h 0b00000001) = some (.dataByte 0x01) := by decide

/-- R103: line 7, a pad bit, a delay of 0; and words of no row. -/
theorem test_decode_refuses :
    decode (.uops [0b01110000]) = none ∧ decode (.uops [0b00000010]) = none ∧ decode (.uops [0b10000000]) = none ∧
    decode (.uops []) = none ∧ decode (.uops [0x01, 0x11, 0x20, 0x30, 0x51, 0x81, 0x50, 0x82]) = none ∧
    decode (.busNibble 0x4) = none ∧ decode (.busByte .l 0x02) = none := by decide

/-- The host's entry: a request word, a micro-operation word, a bus command byte, a raw nibble. -/
theorem test_decodeTableWord :
    decodeTableWord 32 0x50001401 = some (.print 0 20 1) ∧ decodeTableWord 8 0x94 = some (.delay 20) ∧
    decodeTableWord 8 0x28 = some .cmdFunctionSet ∧ decodeTableWord 4 0x3 = some .nibWake ∧
    decodeTableWord 16 0 = none := by decide

/-! ## Micro-programs as words (V13, V14, V18, V26, V30, V31) -/

/-- V21. -/
theorem test_setPosition_words : (setPositionProgram 1 5).map MicroOp.word =
    [0x40, 0x00, 0x10, 0x21, 0x31, 0x51, 0x81, 0x50, 0x81, 0x01, 0x10, 0x21, 0x30, 0x51, 0x81, 0x50, 0x81] := by
  decide

/-- V26: `PRINT 0, 20, "X"`. -/
theorem test_print_words : (printProgram 0 20 [0x58]).map MicroOp.word =
    [0x40, 0x00, 0x10, 0x20, 0x31, 0x51, 0x81, 0x50, 0x81, 0x01, 0x11, 0x21, 0x31, 0x51, 0x81, 0x50, 0x81,
     0x41, 0x01, 0x10, 0x21, 0x30, 0x51, 0x81, 0x50, 0x81, 0x00, 0x10, 0x20, 0x31, 0x51, 0x81, 0x50, 0x81] := by
  decide

/-- V30, up to the raw nibble `0x2`. -/
theorem test_initForcing_words : initForcing.map MicroOp.word =
    [0x40, 0x94, 0x01, 0x11, 0x20, 0x30, 0x51, 0x81, 0x50, 0x81, 0x85,
     0x01, 0x11, 0x20, 0x30, 0x51, 0x81, 0x50, 0x81, 0x81, 0x01, 0x11, 0x20, 0x30, 0x51, 0x81, 0x50, 0x81,
     0x00, 0x11, 0x20, 0x30, 0x51, 0x81, 0x50, 0x81] := by decide

/-- V30, the four commands. -/
theorem test_initConfigure_words : initConfigure.map MicroOp.word =
    [0x40, 0x00, 0x11, 0x20, 0x30, 0x51, 0x81, 0x50, 0x81, 0x00, 0x10, 0x20, 0x31, 0x51, 0x81, 0x50, 0x81,
     0x40, 0x00, 0x10, 0x20, 0x30, 0x51, 0x81, 0x50, 0x81, 0x00, 0x10, 0x21, 0x31, 0x51, 0x81, 0x50, 0x81] ++
    [0x40, 0x00, 0x10, 0x20, 0x30, 0x51, 0x81, 0x50, 0x81, 0x01, 0x10, 0x20, 0x30, 0x51, 0x81, 0x50, 0x81, 0x82,
     0x40, 0x00, 0x10, 0x20, 0x30, 0x51, 0x81, 0x50, 0x81, 0x00, 0x11, 0x21, 0x30, 0x51, 0x81, 0x50, 0x81] := by
  decide

/-- V30 and V31: the backlight event is last, and absent without the line. -/
theorem test_init_backlight :
    initProgram true = initForcing ++ initConfigure ++ [.set .bl .h] ∧
    initProgram false = initForcing ++ initConfigure := by decide

/-- V14 and V19: command `0x01` settles, data `0x01` does not. -/
theorem test_only_the_command_settles :
    (commandProgram 0x01).getLast? = some (.delay 2) ∧ (writeDataProgram 0x01).getLast? = some (.delay 1) := by
  decide

/-! ## Single steps -/

/-- V30's start: accepted in `ForcingEightBit` before the first event. -/
theorem test_init_accepted :
    shows (step (asking 0x10000000)) (fun s => (s.cs, s.busy, s.upc, s.trace)) =
      some (.forcingEightBit, true, 0, []) := by decide

/-- V34: a second `INIT`. -/
theorem test_init_again : shows (step (readyAsking 0x10000000)) (fun s => (s.fault, s.cs, s.busy)) =
    some (some .reinit, .configured, false) := by decide

/-- V33: a command before `INIT`. -/
theorem test_command_before_init :
    shows (step (asking 0x20000028)) (fun s => (s.fault, s.cs, s.resp.bind Response.faultCode, s.trace)) =
      some (some .notConfigured, .unknown, some .notConfigured, []) := by decide

theorem test_command_accepted : shows (step (readyAsking 0x20000028)) (fun s => (s.op.instr, s.busy, s.resp)) =
    some (.command 0x28, true, none) := by decide

theorem test_writeData_accepted : shows (step (readyAsking 0x30000041)) (fun s => (s.op.instr, s.busy)) =
    some (.writeData 0x41, true) := by decide

/-- V33a. -/
theorem test_clear_before_init : shows (step (asking 0x60000000)) (fun s => s.fault) =
    some (some .notConfigured) := by decide

/-- V39: an invalid row is done at once, with no event and no fault. -/
theorem test_setPosition_invalid_row :
    shows (step (readyAsking 0x40020300)) (fun s => (s.busy, s.fault, s.trace, s.resp.isSome)) =
      some (false, none, [], true) := by decide

/-- V33b: the state check comes before the row test. -/
theorem test_print_before_init : shows (step (asking 0x50020005)) (fun s => s.fault) =
    some (some .notConfigured) := by decide

/-- The text is what `TXT` holds, index 0 first (R61, R70). -/
theorem test_print_takes_its_text :
    shows (step { readyAsking 0x50000002 with txt := [(0, 0x48), (1, 0x69)] }) (fun s => s.op.text) =
      some [0x48, 0x69] := by decide

/-- V36a: the first code is kept, the response carries this one. -/
theorem test_illegal_keeps_the_first_code :
    shows (step { faulted with host := [.request 0x00000000] })
      (fun s => (s.fault, s.resp.bind Response.faultCode)) =
      some (some .notConfigured, some .illegalReq) := by decide

/-- V36: a faulted block refuses `INIT`. -/
theorem test_faulted_refuses_init :
    shows (step { faulted with host := [.request 0x10000000] })
      (fun s => (s.fault, s.resp.bind Response.faultCode, s.cs, s.busy)) =
      some (some .notConfigured, some .notConfigured, .unknown, false) := by decide

/-- V37, V40: `CONVERT 4095` on a faulted block. -/
theorem test_convert_open_circuit :
    shows (step { faulted with host := [.request 0x70000FFF] }) (fun s => (s.temp, s.fault, s.trace)) =
      some (some .posInf, some .notConfigured, []) := by decide

/-- V10f: `SET E, L` when the strobe is low already is still an event. -/
theorem test_set_redrives :
    shows (exec (.set .e .l) { State.reset with lines := Lines.undriven.put .e .l })
      (fun s => (s.lines.e, s.lines.rs, s.trace)) = some (.l, .u, [.set .e .l]) := by decide

/-- R48: a delay handed out holds the sequencer. -/
theorem test_delay_holds :
    shows (exec (.delay 5) State.reset) (fun s => (s.trace, s.pending)) =
      some ([.delay 5], some ⟨5, .sequencer⟩) := by decide

/-- V11: the lines after `LATCH 0xA`, `D3..D0 = H,L,H,L`. -/
theorem test_latch_lines :
    shows (exec (.latch 0xA) State.reset) (fun s => s.lines) = some ⟨.l, .h, .l, .h, .u, .l, .u⟩ := by decide

/-- V12: sixteen events, and the low nibble left on the lines. -/
theorem test_sendByte :
    shows (exec (.sendByte 0xC5) State.reset) (fun s => (s.trace.length, s.lines)) =
      some (16, ⟨.h, .l, .h, .l, .u, .l, .u⟩) := by decide

theorem test_raw_nibbles_leave_rs :
    shows (exec .nibWake State.reset) (fun s => s.lines) = some ⟨.h, .h, .l, .l, .u, .l, .u⟩ ∧
    shows (exec .nib4Bit State.reset) (fun s => s.lines) = some ⟨.l, .h, .l, .l, .u, .l, .u⟩ := by decide

/-- V13 and its like: what each configuration command latches. -/
theorem test_configuration_patterns :
    shows (exec .cmdFunctionSet State.reset) (fun s => pairUp (observe .undriven false s.trace)) =
      some [⟨.l, 0x28⟩] ∧
    shows (exec .cmdDisplayCtrl State.reset) (fun s => pairUp (observe .undriven false s.trace)) =
      some [⟨.l, 0x0C⟩] ∧
    shows (exec .cmdClear State.reset) (fun s => (pairUp (observe .undriven false s.trace), s.trace.length)) =
      some ([⟨.l, 0x01⟩], 18) ∧
    shows (exec .cmdEntryMode State.reset) (fun s => pairUp (observe .undriven false s.trace)) =
      some [⟨.l, 0x06⟩] := by decide

/-- V22, V23a, V18. -/
theorem test_address_and_data_patterns :
    shows (exec (.cmdAddrRow0 15) State.reset) (fun s => pairUp (observe .undriven false s.trace)) =
      some [⟨.l, 0x8F⟩] ∧
    shows (exec (.cmdAddrRow1 15) State.reset) (fun s => pairUp (observe .undriven false s.trace)) =
      some [⟨.l, 0xCF⟩] ∧
    shows (exec (.dataByte 0x41) State.reset) (fun s => pairUp (observe .undriven false s.trace)) =
      some [⟨.h, 0x41⟩] := by decide

/-- R306: reset in the middle of an operation. -/
theorem test_reset_abandons :
    shows (step { running .init 40 .fourBitMode with rst := [true] }) (fun s => (s.busy, s.cs, s.upc)) =
      some (false, .unknown, 0) := by decide

/-- R37: `cs` after the raw nibble `0x2`, once its low hold is over. -/
theorem test_cs_advances :
    shows (step { running .init 35 .forcingEightBit with pending := some ⟨1, .sequencer⟩ })
      (fun s => (s.upc, s.cs)) = some (36, .fourBitMode) := by decide

/-- R272: a collaborator that hangs leaves the state as it is. -/
theorem test_hang :
    step { running .init 1 .forcingEightBit with pending := some ⟨20, .sequencer⟩, timer := ⟨0, some 0⟩ } =
      .next { running .init 1 .forcingEightBit with pending := some ⟨20, .sequencer⟩, timer := ⟨0, some 0⟩ } := rfl

/-- A request while `busy = 1` is no step of the model (R139, U9). -/
theorem test_busy_refuses : exec (.command 0x28) (running .init 0 .forcingEightBit) = .refused .requestWhileBusy := rfl

/-- The host's entry: the placed word is what the step runs. -/
theorem test_withFetchWord :
    shows (step (State.reset.withFetchWord 32 0x10000000)) (fun s => (s.op.instr, s.cs)) =
      some (.init, .forcingEightBit) ∧
    shows (step (State.reset.withFetchWord 8 0x51)) (fun s => s.trace) = some [.set .e .h] ∧
    shows (step (State.reset.withFetchWord 4 0x3)) (fun s => (s.op.instr, s.trace)) =
      some (.nibWake, [.set .d0 .h]) := by decide

/-- R279's own example: 24.7 is seven characters, `T1:24.7`. -/
theorem test_format_two_digits :
    formatField 1 (.finite (247 / 10)) = [0x54, 0x31, 0x3A, 0x32, 0x34, 0x2E, 0x37] := by decide +kernel

/-- R307: a faulted block, a running one and one whose last operation a reset abandoned are in no good final state. -/
theorem test_goodFinal :
    faulted.goodFinal = false ∧ (running .init 0 .forcingEightBit).goodFinal = false ∧
    shows (step { running .init 40 .fourBitMode with rst := [true] }) State.goodFinal = some false ∧
    ({ configured with resp := some ⟨none, none⟩ } : State).goodFinal = true := by decide

/-- R306: a reset drops the pending delay (the host's own too: assumption log 28). -/
theorem test_reset_drops_the_delay :
    shows (step { running .init 1 .forcingEightBit with pending := some ⟨20, .sequencer⟩, rst := [true] })
      State.pending = some none ∧
    shows (step { configured with pending := some ⟨1000, .host⟩, rst := [true] }) State.pending = some none := by
  decide

/-! ## Witnesses: a concrete state and operands for the hypotheses of each statement -/

theorem initProgram_longer {k : Nat} (hk : k < 105) (x : List Byte) : k < (uprog ⟨.init, x⟩).length := by
  have h : ∀ bl : Bool, 105 ≤ (initProgram bl).length := by decide
  exact Nat.lt_of_lt_of_le hk (h _)

theorem mem_initProgram {k : Nat} {u : MicroOp} (h : (initForcing ++ initConfigure)[k]? = some u) (x : List Byte) :
    (uprog ⟨.init, x⟩)[k]? = some u := by
  have hk : k < (initForcing ++ initConfigure).length := by
    by_contra hn
    simp [List.getElem?_eq_none (Nat.le_of_not_lt hn)] at h
  show (initForcing ++ initConfigure ++ _)[k]? = some u
  rw [List.getElem?_append_left hk, h]

/-- An idle block as reset leaves it, whatever its host is about to do and whether the handshake is over, meets the
invariant. -/
theorem witness_inv_idle (acts : List HostAct) (cs : CtrlState) (hc : cs = .unknown ∨ cs = .configured)
    (f : Option FaultCode) : ({ State.reset with host := acts, cs := cs, fault := f } : State).Inv where
  txtWf := rfl
  linesFollowTrace := rfl
  sequencerOk := ⟨fun h => absurd h (by simp [State.reset]), fun _ _ h => nomatch h⟩
  csOk := ⟨fun h => absurd h (by simp [State.reset]), fun _ => hc⟩
  faultHalts := fun _ => rfl
  timeOk := by simp [State.timeOk, State.pendingMs, State.reset, requestedMs]

/-- A block inside `INIT`, waiting for the delay at `upc`, meets the invariant. -/
theorem witness_inv_init {k : Nat} {ms : BitVec 7} (h : (initForcing ++ initConfigure)[k]? = some (.delay ms))
    (hk : k < 105) : ({ running .init k (initPhase k) with pending := some ⟨ms.setWidth 16, .sequencer⟩ } : State).Inv where
  txtWf := rfl
  linesFollowTrace := rfl
  sequencerOk :=
    ⟨fun _ => ⟨rfl, by simp [running], initProgram_longer hk [], fun p hp => by
      obtain rfl : _ = p := Option.some.inj hp
      exact ⟨rfl, ms, mem_initProgram h [], rfl⟩⟩, fun h => nomatch h⟩
  csOk := ⟨fun _ => rfl, fun h => nomatch h⟩
  faultHalts := fun h => nomatch h
  timeOk := by
    simp only [State.timeOk, running, State.reset, requestedMs, Nat.cast_zero, zero_add]
    positivity

theorem witness_DecodeEncodeRoundTrip :
    (Instr.print 255 255 255).wellFormed = true ∧ (Instr.illegal 0xF0000000).wellFormed = true ∧
    (Instr.set .e .h).wellFormed = true ∧ (Instr.delay 127).wellFormed = true := by decide

theorem witness_EncodeOfDecodedRequestIsTheWord :
    decodeRequest 0x10000000 = decodeRequest 0x10000000 := rfl

theorem witness_IllegalWordsFault : State.reset.busy = false ∧ faulted.busy = false := by decide

theorem witness_StepRunsTheRequestedInstruction :
    (asking 0x20000028).resetAsserted = false ∧ (asking 0x20000028).idle ∧
    (asking 0x20000028).host = .request 0x20000028 :: [] := ⟨rfl, ⟨rfl, rfl⟩, rfl⟩

theorem witness_StepRunsTheMicroOperationAtUpc :
    let s := running (.command 0x28) 0 .configured
    let t := running (.command 0x28) 6 .configured
    (s.resetAsserted = false ∧ s.busy = true ∧ s.pending = none ∧ (uprog s.op)[s.upc]? = some (.set .rs .l) ∧
      (MicroOp.set .rs .l).wellFormed = true) ∧
    (t.resetAsserted = false ∧ t.busy = true ∧ t.pending = none ∧ (uprog t.op)[t.upc]? = some (.delay 1)) := by
  decide

theorem witness_StepDoesTheHostsActs :
    let s := fun a => ({ State.reset with host := a } : State)
    (∀ a, (s a).resetAsserted = false ∧ (s a).idle ∧ (s a).txtWf) ∧ (s [.writeTxt 255 0]).host = .writeTxt 255 0 :: [] ∧
    (s [.wait 1000]).host = .wait 1000 :: [] ∧ (s []).host = [] :=
  ⟨fun _ => ⟨rfl, ⟨rfl, rfl⟩, rfl⟩, rfl, rfl, rfl⟩

theorem witness_ResetIsTheOnlyWayBack :
    ({ running .init 40 .fourBitMode with rst := [true] } : State).resetAsserted = true ∧
    State.reset.resetAsserted = false ∧ step State.reset = .next State.reset ∧ State.reset.cs = .unknown ∧
    State.reset.fault = none := ⟨rfl, rfl, rfl, rfl, rfl⟩

theorem witness_StepKeepsTheInvariant :
    State.reset.Inv ∧ step State.reset = .next State.reset :=
  ⟨witness_inv_idle [] .unknown (.inl rfl) none, rfl⟩

/-- Each of the four outcomes of the statement: idle, acceptance, and the two points inside `INIT`. -/
theorem witness_CsMovesOnlyInsideInit :
    (State.reset.Inv ∧ State.reset.resetAsserted = false ∧ step State.reset = .next State.reset) ∧
    ((asking 0x10000000).Inv ∧ (asking 0x10000000).resetAsserted = false ∧
      shows (step (asking 0x10000000)) State.cs = some .forcingEightBit) ∧
    (∃ s : State, s.Inv ∧ s.resetAsserted = false ∧ s.upc = 35 ∧ shows (step s) State.cs = some .fourBitMode) ∧
    (∃ s : State, s.Inv ∧ s.resetAsserted = false ∧ s.upc = 104 ∧ shows (step s) State.cs = some .configured) :=
  ⟨⟨witness_inv_idle [] .unknown (.inl rfl) none, rfl, rfl⟩,
   ⟨witness_inv_idle [.request 0x10000000] .unknown (.inl rfl) none, rfl, by decide⟩,
   ⟨_, witness_inv_init (k := 35) (ms := 1) (by decide) (by decide), rfl, rfl, by decide⟩,
   ⟨_, witness_inv_init (k := 104) (ms := 1) (by decide) (by decide), rfl, rfl,
     (congrArg some (State.retire_cs _)).trans (by decide)⟩⟩

theorem witness_UpcAdvancesByOne :
    ∃ s : State, s.Inv ∧ s.busy = true ∧ s.resetAsserted = false ∧ shows (step s) State.upc = some 2 :=
  ⟨_, witness_inv_init (k := 1) (ms := 20) (by decide) (by decide), rfl, rfl, by decide⟩

theorem witness_OperandsHoldWhileBusy :
    let s := running (.command 0x28) 0 .configured
    s.busy = true ∧ s.resetAsserted = false ∧ ∃ t, step s = .next t := ⟨rfl, rfl, _, rfl⟩

theorem witness_HostWaitsWhileBusy :
    let s : State := { running (.command 0x28) 0 .configured with host := [.request 0x60000000] }
    s.busy = true ∧ ∃ t, step s = .next t := ⟨rfl, _, rfl⟩

theorem witness_LinesChangeOnlyBySet :
    let s := running (.command 0x28) 0 .configured
    s.resetAsserted = false ∧ ∃ t, step s = .next t ∧ t.lines ≠ s.lines := ⟨rfl, _, rfl, by decide⟩

theorem witness_LineLevelsAreNeverRead :
    ∃ t, step (running (.command 0x28) 0 .configured) = .next t := ⟨_, rfl⟩

theorem witness_TraceGrowsInProgramOrder :
    let s := running (.command 0x28) 0 .configured
    s.resetAsserted = false ∧ (∃ t, step s = .next t) ∧ s.busy = true ∧ s.pending = none ∧
    (uprog s.op)[s.upc]? = some (.set .rs .l) := ⟨rfl, ⟨_, rfl⟩, rfl, rfl, rfl⟩

theorem witness_SequencerRefinesThePseudocode :
    let s := running (.command 0x01) 0 .configured
    let t := running .init 0 .forcingEightBit
    (s.busy = true ∧ s.upc = 0 ∧ s.pending = none ∧ s.undisturbed ∧ s.op.instr.wellFormed = true ∧ uprog s.op ≠ []) ∧
    (t.busy = true ∧ t.upc = 0 ∧ t.pending = none ∧ t.undisturbed ∧ t.op.instr.wellFormed = true ∧ uprog t.op ≠ [] ∧
      t.cs = .forcingEightBit) :=
  ⟨⟨rfl, rfl, rfl, ⟨rfl, rfl⟩, rfl, by decide⟩,
   ⟨rfl, rfl, rfl, ⟨rfl, rfl⟩, rfl, fun h => absurd (congrArg List.head? h) (by decide), rfl⟩⟩

theorem witness_StalledTimingHangs :
    let s : State := { running .init 1 .forcingEightBit with
      pending := some ⟨20, .sequencer⟩, timer := ⟨3, some 3⟩ }
    s.rst = [] ∧ s.pending.isSome = true ∧ s.timer.hung = true ∧ Reaches s s := ⟨rfl, rfl, rfl, 0, rfl⟩

theorem witness_InitCompletes : State.reset.ready ∧ State.reset.undisturbed ∧ State.reset.cs = .unknown :=
  ⟨⟨⟨rfl, rfl⟩, rfl⟩, ⟨rfl, rfl⟩, rfl⟩

theorem witness_configured : configured.ready ∧ configured.undisturbed ∧ configured.cs = .configured :=
  ⟨⟨⟨rfl, rfl⟩, rfl⟩, ⟨rfl, rfl⟩, rfl⟩

theorem witness_CommandCompletes : configured.ready ∧ configured.undisturbed ∧ configured.cs = .configured :=
  witness_configured

theorem witness_WriteDataCompletes : configured.ready ∧ configured.undisturbed ∧ configured.cs = .configured :=
  witness_configured

theorem witness_ClearIsCommandOne :
    configured.ready ∧ configured.undisturbed ∧ configured.cs = .configured ∧ State.reset.busy = false :=
  ⟨witness_configured.1, witness_configured.2.1, witness_configured.2.2, rfl⟩

/-- Rows 0 and 1, columns 20 and 255: the addresses `0x8F` and `0xCF` (V23, V23a). -/
theorem witness_SetPositionCompletes :
    (configured.ready ∧ configured.undisturbed ∧ configured.cs = .configured) ∧
    ((0 : Byte) = 0 ∧ (0x8F : Byte).toNat = (if (0 : Byte) = 0 then 0x80 else 0xC0) + min (20 : Byte).toNat 15) ∧
    ((1 : Byte) = 1 ∧ (0xCF : Byte).toNat = (if (1 : Byte) = 0 then 0x80 else 0xC0) + min (255 : Byte).toNat 15) :=
  ⟨witness_configured, by decide, by decide⟩

theorem witness_PrintCompletes :
    (configured.ready ∧ configured.undisturbed ∧ configured.cs = .configured) ∧
    ((0 : Byte) = 0 ∧ (0x8F : Byte).toNat = (if (0 : Byte) = 0 then 0x80 else 0xC0) + min (15 : Byte).toNat 15) ∧
    ((1 : Byte) = 1 ∧ (0xC0 : Byte).toNat = (if (1 : Byte) = 0 then 0x80 else 0xC0) + min (0 : Byte).toNat 15) :=
  ⟨witness_configured, by decide, by decide⟩

theorem witness_InvalidRowDoesNothing :
    configured.ready ∧ configured.cs = .configured ∧ ((2 : Byte) ≠ 0 ∧ (2 : Byte) ≠ 1) ∧
    ((255 : Byte) ≠ 0 ∧ (255 : Byte) ≠ 1) := ⟨witness_configured.1, rfl, by decide, by decide⟩

theorem witness_SetDrivesOneLine : Line.e = .bl → Config.hasBacklight = true := fun h => nomatch h

theorem witness_DelayHoldsForItsTime :
    (127 : BitVec 7) ≠ 0 ∧
    let s : State := { running .init 1 .forcingEightBit with pending := some ⟨20, .sequencer⟩ }
    s.resetAsserted = false ∧ s.pending = some ⟨20, .sequencer⟩ ∧ s.timer.stalls = false := by decide

theorem witness_LatchPresentsTheNibble : State.reset.timer.stalls = false := rfl

theorem witness_SendByteIsTwoLatches : State.reset.timer.stalls = false := rfl

theorem witness_RawNibblePatternsAreLatched : State.reset.timer.stalls = false := rfl

theorem witness_ConfigurationPatternsAreSent : State.reset.timer.stalls = false := rfl

theorem witness_AddressAndDataPatternsAreSent :
    State.reset.timer.stalls = false ∧ (0x8F : Byte).toNat = 0x80 + (15 : Nibble).toNat ∧
    (0xCF : Byte).toNat = 0xC0 + (15 : Nibble).toNat := by decide

theorem witness_SecondInitFaults :
    configured.busy = false ∧ configured.fault = none ∧ configured.cs ≠ .unknown := by decide

theorem witness_BusOperationsNeedConfigured :
    isBusOperation (.setPosition 2 3) = true ∧ Instr.setPosition 2 3 ≠ .init ∧ State.reset.busy = false ∧
    State.reset.fault = none ∧ State.reset.cs ≠ .configured := by decide

/-- One for each of the three faults. -/
theorem witness_FaultEntryKeepsTheFirstCode :
    (faulted.busy = false ∧ (∃ w, Instr.illegal 0 = .illegal w) ∧ FaultCode.illegalReq = .illegalReq) ∧
    (configured.busy = false ∧ configured.fault = none ∧ Instr.init = .init ∧ configured.cs ≠ .unknown) ∧
    (State.reset.busy = false ∧ State.reset.fault = none ∧ isBusOperation .clear = true ∧ Instr.clear ≠ .init ∧
      State.reset.cs ≠ .configured) := ⟨⟨rfl, ⟨0, rfl⟩, rfl⟩, by decide, by decide⟩

theorem witness_FaultedBlockRefuses :
    faulted.busy = false ∧ faulted.fault = some .notConfigured ∧ isBusOperation .init = true := by decide

theorem witness_FaultIsStickyAndHalts :
    faulted.Inv ∧ faulted.resetAsserted = false ∧ faulted.fault = some .notConfigured ∧
    step faulted = .next faulted :=
  ⟨witness_inv_idle [] .unknown (.inl rfl) (some .notConfigured), rfl, rfl, rfl⟩

/-- One for each outcome: illegal, `CONVERT`, refused, `F_REINIT`, `F_NOT_CONFIGURED`, accepted. -/
theorem witness_RequestChecksInOrder :
    (faulted.busy = false ∧ decodeRequest 0x00000000 = .illegal 0) ∧
    (faulted.busy = false ∧ decodeRequest 0x70000FFF = .convert 4095) ∧
    (faulted.busy = false ∧ decodeRequest 0x10000000 = .init ∧ faulted.fault = some .notConfigured) ∧
    (configured.busy = false ∧ configured.fault = none ∧ decodeRequest 0x10000000 = .init ∧ configured.cs ≠ .unknown) ∧
    (State.reset.busy = false ∧ State.reset.fault = none ∧ decodeRequest 0x60000000 = .clear ∧
      State.reset.cs ≠ .configured) ∧
    (configured.busy = false ∧ configured.fault = none ∧ decodeRequest 0x40020300 = .setPosition 2 3 ∧
      configured.cs = .configured) := by decide

theorem witness_ConvertEvaluatesTheFormula : (0 : SampleCode) ≠ 4095 ∧ (4094 : SampleCode) ≠ 4095 := by decide

theorem witness_ConvertIsFiniteOnItsRange :
    (1 ≤ (1 : SampleCode).toNat ∧ (1 : SampleCode).toNat ≤ 4094) ∧
    (1 ≤ (4094 : SampleCode).toNat ∧ (4094 : SampleCode).toNat ≤ 4094) := by decide

theorem witness_ConvertIsStrictlyDecreasing :
    1 ≤ (1 : SampleCode).toNat ∧ (1 : SampleCode).toNat < (4094 : SampleCode).toNat ∧
    (4094 : SampleCode).toNat ≤ 4094 := by decide

theorem witness_Binary32ExactnessFacts : (0 : SampleCode) ≠ 4095 ∧ (4094 : SampleCode) ≠ 4095 := by decide

theorem witness_AddressFunctionLaws :
    posCmd 0 0 = some 0x80 ∧ posCmd 0 15 = some 0x8F ∧ posCmd 1 16 = some 0xCF ∧ posCmd 1 255 = some 0xCF := by
  decide

theorem witness_ColumnsFrom15AreColumn15 : 15 ≤ (15 : Byte).toNat ∧ 15 ≤ (255 : Byte).toNat := by decide

theorem witness_EmptyTextIsSetPosition : (3 : Byte) ≠ 0 ∧ (3 : Byte) ≠ 1 := by decide

theorem witness_EveryStrobeIsHeld :
    isBusOperation (.command 0x28) = true ∧ (uprog ⟨.command 0x28, []⟩)[5]? = some (.set .e .h) ∧
    isBusOperation .init = true := by decide

theorem witness_RsIsStableThroughAByte :
    isBusOperation (.writeData 0x41) = true ∧ (uprog ⟨.writeData 0x41, []⟩)[0]? = some (.set .rs .h) := by decide

theorem witness_NibblesComeInPairs :
    isBusOperation .clear = true ∧ uprog ⟨.clear, []⟩ ≠ [] := by decide

theorem witness_ObserverReadsBackWhatIsSent : posCmd 0 20 = some 0x8F := by decide

theorem witness_EventCountsAndMinimumTimes :
    ((0 : Byte) = 0 ∨ (0 : Byte) = 1) ∧ ((1 : Byte) = 0 ∨ (1 : Byte) = 1) ∧ ((2 : Byte) ≠ 0 ∧ (2 : Byte) ≠ 1) := by
  decide

theorem witness_OpenCircuitShowsAsInf :
    ((10 : Rat) ≤ 10 ∧ (10 : Rat) ≤ 999 / 10) ∧ ((10 : Rat) ≤ 999 / 10 ∧ (999 / 10 : Rat) ≤ 999 / 10) := by
  norm_num

theorem witness_HostStartsOnceThenLoops :
    none ∈ [some (1 : SampleCode), none, some 4095, some 1, some 1, some 1] := by decide

end Sys2Proof.Tests
end

/-! # The scope of the block (00_scope.md): the host waits while an operation runs, and the sequencer performs the
pseudocode -/

namespace Sys2Proof.Machine

/-- Settles O16: no agent but the host takes one of its acts, and the host has no step while an operation runs. -/
theorem hostWaitsWhileBusy : Obligations.HostWaitsWhileBusy := by
  intro s t hbusy hstep
  have notIdle : s.busy ≠ false := by simp [hbusy]
  cases step_cases hstep with
  | reset _ h => rw [h, State.applyReset]
  | stalled _ _ _ _ h => simp [h]
  | returned _ _ _ _ _ _ _ h => simp [h]
  | waited _ _ _ _ _ _ _ h => simp [h]
  | ended _ _ _ _ h => simp [h]
  | setDone _ _ _ _ _ _ h => simp [h]
  | delayHanded _ _ _ _ _ h => simp [h]
  | idle _ _ hb => exact absurd hb notIdle
  | request _ _ hb => exact absurd hb notIdle
  | writeTxt _ _ hb => exact absurd hb notIdle
  | wait _ _ hb => exact absurd hb notIdle

/-! ## The sequencer and the pseudocode

Running a micro-program at once (`runMicroOps`) keeps neither a position nor `cs`; the sequencer keeps both. The two are
related by forgetting them: the sequencer's state is the pseudocode's state put at a position. -/

/-- The pseudocode's state `s` as the sequencer holds it: at position `n`, with `cs = c`. -/
def State.putAt (s : State) (n : Nat) (c : CtrlState) : State := { s with upc := n, cs := c }

theorem State.putAt_eq_self {s : State} {n : Nat} (h : s.upc = n) : s.putAt n s.cs = s := h ▸ rfl

theorem State.emitSet_putAt (s : State) (n : Nat) (c : CtrlState) (l : Line) (v : Level) :
    (s.putAt n c).emitSet l v = (s.emitSet l v).putAt n c := rfl

theorem State.emitDelay_putAt (s : State) (n : Nat) (c : CtrlState) (ms : BitVec 7) :
    (s.putAt n c).emitDelay ms = (s.emitDelay ms).putAt n c := rfl

/-- The timing collaborator answers both alike. -/
theorem State.awaitDelay_putAt {s t : State} {ms : BitVec 16} (h : s.awaitDelay ms = some t) (n : Nat)
    (c : CtrlState) : (s.putAt n c).awaitDelay ms = some (t.putAt n c) := by
  obtain ⟨a, ha, rfl⟩ := Option.map_eq_some_iff.1 h
  exact Option.map_eq_some_iff.2 ⟨a, ha, rfl⟩

theorem State.retire_putAt_of_last {s : State} {n : Nat} (c : CtrlState) (h : n + 1 = (uprog s.op).length) :
    (s.putAt n c).retire = (s.putAt (n + 1) (csAfter s.op (n + 1) c)).complete := if_pos h

theorem State.retire_putAt_of_not_last {s : State} {n : Nat} (c : CtrlState) (h : n + 1 ≠ (uprog s.op).length) :
    (s.putAt n c).retire = s.putAt (n + 1) (csAfter s.op (n + 1) c) := if_neg h

/-- The operation `op` is in progress in `s`, between two micro-operations, and nothing outside stops it. -/
structure State.Runs (s : State) (op : OpLatch) : Prop where
  op : s.op = op
  busy : s.busy = true
  pending : s.pending = none
  undisturbed : s.undisturbed

/-- One micro-operation: what the pseudocode goes on from, `r`, is where the sequencer retires it. -/
theorem sequencer_simulates_microOp {op : OpLatch} {s : State} {n : Nat} {u : MicroOp} (hs : s.Runs op)
    (hw : u.wellFormed = true) (hu : (uprog op)[n]? = some u) (us : List MicroOp) (c : CtrlState) :
    ∃ r : State, r.Runs op ∧ runMicroOps (u :: us) s = runMicroOps us r ∧
      Reaches (s.putAt n c) (r.putAt n c).retire := by
  obtain ⟨rfl, hb, hp, hr, ht⟩ := hs
  cases u with
  | set l v =>
    have hstep := step_set (s := s.putAt n c) hb hp hr hw hu
    rw [State.emitSet_putAt] at hstep
    exact ⟨s.emitSet l v, ⟨rfl, hb, hp, hr, ht⟩, by simp [runMicroOps, performSet_of_wellFormed hw],
      .head hstep (.refl _)⟩
  | delay ms =>
    obtain ⟨r, hret⟩ := State.awaitDelay_isSome (s := s.emitDelay ms) ht (ms.setWidth 16)
    have hrun : runMicroOps (.delay ms :: us) s = runMicroOps us r := by
      simp [runMicroOps, performDelay_of_wellFormed hw, hret]
    have hout := step_delay (s := s.putAt n c) hb hp hr hw hu
    rw [State.emitDelay_putAt] at hout
    have hback := step_return (s := (s.emitDelay ms).putAt n c) rfl rfl hr (State.awaitDelay_putAt hret n c)
    obtain ⟨late, tm, -, htm, rfl⟩ := State.awaitDelay_eq_some hret
    exact ⟨(s.emitDelay ms).delayReturned _ late tm, ⟨rfl, hb, rfl, hr, htm.trans ht⟩, hrun,
      .head hout (.head hback (.refl _))⟩

/-- `cs` once the `k` micro-operations from position `n` on have completed (R37). -/
def csAfterNext (op : OpLatch) (n k : Nat) (c : CtrlState) : CtrlState :=
  (List.range k).foldl (fun c j => csAfter op (n + 1 + j) c) c

@[simp] theorem csAfterNext_zero (op : OpLatch) (n : Nat) (c : CtrlState) : csAfterNext op n 0 c = c := rfl

theorem csAfterNext_succ (op : OpLatch) (n k : Nat) (c : CtrlState) :
    csAfterNext op n (k + 1) c = csAfterNext op (n + 1) k (csAfter op (n + 1) c) := by
  simp only [csAfterNext, List.range_succ_eq_map, List.foldl_cons, List.foldl_map, Nat.succ_eq_add_one,
    Nat.add_assoc, Nat.add_comm 1]

/-- Over a whole micro-program `cs` becomes `Configured` for `INIT`, which starts in `ForcingEightBit`, and stays for
every other operation. -/
theorem csAfterNext_uprog {op : OpLatch} {c : CtrlState} (hc : op.instr = .init → c = .forcingEightBit) :
    csAfterNext op 0 (uprog op).length c = if op.instr = .init then .configured else c := by
  obtain ⟨i, text⟩ := op
  by_cases hi : i = .init
  · subst hi
    rw [hc rfl, if_pos rfl]
    exact foldl_csAfter_init Config.hasBacklight text
  · rw [if_neg hi]
    exact foldl_csAfter_of_ne hi _ _ c

/-- The rest of a micro-program: the sequencer, from position `n`, completes the operation in exactly the state the
pseudocode ends in. -/
theorem sequencer_simulates {op : OpLatch} {us : List MicroOp} {s : State} {n : Nat} (c : CtrlState)
    (hs : s.Runs op) (hw : ∀ u ∈ us, u.wellFormed = true) (hus : (uprog op).drop n = us) (hne : us ≠ []) :
    ∃ t, runMicroOps us s = .next t ∧
      Reaches (s.putAt n c) (t.putAt (uprog op).length (csAfterNext op n us.length c)).complete := by
  induction us generalizing s n c with
  | nil => exact absurd rfl hne
  | cons u us ih =>
    obtain ⟨hu, hrest⟩ : (uprog op)[n]? = some u ∧ (uprog op).drop (n + 1) = us := by
      rw [← List.head?_drop, ← List.tail_drop, hus]
      exact ⟨rfl, rfl⟩
    obtain ⟨hwu, hwus⟩ := List.forall_mem_cons.1 hw
    obtain ⟨r, hr, hrun, hreach⟩ := sequencer_simulates_microOp hs hwu hu us c
    have hlen : (uprog op).length = n + (us.length + 1) := by
      have h1 := congrArg List.length hus
      simp only [List.length_drop, List.length_cons] at h1
      omega
    rw [hrun, List.length_cons, csAfterNext_succ]
    by_cases hlast : us = []
    · subst hlast
      have hl : n + 1 = (uprog r.op).length := by rw [hr.op, hlen, List.length_nil]
      rw [State.retire_putAt_of_last c hl, hl, hr.op] at hreach
      exact ⟨r, rfl, by simpa [hlen] using hreach⟩
    · have hl : n + 1 ≠ (uprog r.op).length := by
        have := List.length_pos_iff.2 hlast
        rw [hr.op, hlen]
        omega
      rw [State.retire_putAt_of_not_last c hl, hr.op] at hreach
      obtain ⟨t, ht, hreach'⟩ := ih (csAfter op (n + 1) c) hr hwus hrest hlast
      exact ⟨t, ht, hreach.trans hreach'⟩

/-- Settles O20: the simulation from the first micro-operation on, with `cs` as R37 has it over a whole program. -/
theorem sequencerRefinesThePseudocode : Obligations.SequencerRefinesThePseudocode := by
  intro s hb hupc hp hund hw hne hcs
  obtain ⟨u, hu, hreach⟩ := sequencer_simulates (n := 0) s.cs ⟨rfl, hb, hp, hund⟩ (uprog_wellFormed hw) rfl hne
  rw [State.putAt_eq_self hupc, csAfterNext_uprog hcs] at hreach
  exact ⟨u, _, hu, hreach, rfl⟩

end Sys2Proof.Machine

/-! # The state (10_state.md): reset, what every step keeps, and which steps change `cs`, `upc`, the operand latches and
the lines -/

namespace Sys2Proof.Machine

/-! ## Reset -/

/-- Settles O10: each row of R50's table is a field of the reset state. -/
theorem resetStateIsTheTable : Obligations.ResetStateIsTheTable :=
  ⟨fun l => by cases l <;> rfl, rfl, rfl, rfl, rfl, rfl, rfl, rfl⟩

/-- Settles O11: at reset nothing runs, nothing is pending and nothing has been asked for. -/
theorem resetMeetsTheInvariant : Obligations.ResetMeetsTheInvariant where
  txtWf := rfl
  linesFollowTrace := rfl
  sequencerOk := ⟨fun h => (nomatch h), fun _ _ h => nomatch h⟩
  csOk := ⟨fun h => (nomatch h), fun _ => .inl rfl⟩
  faultHalts := fun _ => rfl
  timeOk := by simp [State.timeOk, State.pendingMs, State.reset, requestedMs]

/-! ## `cs` while an operation is at a position (R37) -/

/-- `cs` while the operation `op` is at position `n`: what `State.csOk` asks of a busy block. -/
def opPhase (op : OpLatch) (n : Nat) : CtrlState := if op.instr = .init then initPhase n else .configured

theorem initPhase_eq (n : Nat) :
    initPhase n = if n < 36 then .forcingEightBit else if n < 105 then .fourBitMode else .configured := by
  rw [initPhase, initForcing_length, initConfigure_end]

theorem csAfter_eq (op : OpLatch) (n : Nat) (c : CtrlState) :
    csAfter op n c =
      if op.instr = .init then if n = 36 then .fourBitMode else if n = 105 then .configured else c else c := by
  rw [csAfter, initForcing_length, initConfigure_end]

/-- Completing the micro-operation at a position brings `cs` to where the next position has it. -/
theorem csAfter_opPhase (op : OpLatch) (n : Nat) : csAfter op (n + 1) (opPhase op n) = opPhase op (n + 1) := by
  rw [csAfter_eq, opPhase, opPhase, initPhase_eq, initPhase_eq]
  by_cases hi : op.instr = .init
  · simp only [if_pos hi]
    split_ifs <;> grind
  · simp only [if_neg hi]

theorem opPhase_end (op : OpLatch) : opPhase op (uprog op).length = .configured := by
  obtain ⟨i, text⟩ := op
  by_cases hi : i = .init
  · subst hi
    have hlen : 105 ≤ (uprog ⟨.init, text⟩).length := by
      show 105 ≤ (initProgram Config.hasBacklight).length
      rw [initProgram_length]
      split <;> omega
    rw [opPhase, if_pos rfl, initPhase_eq, if_neg (by omega), if_neg (by omega)]
  · rw [opPhase, if_neg hi]

/-! ## The milliseconds still owed -/

theorem State.pendingMs_eq_zero {s : State} (hp : s.pending = none) : s.pendingMs = 0 := by
  rw [State.pendingMs, hp]

theorem State.pendingMs_le {s : State} {p : PendingDelay} (hp : s.pending = some p) : s.pendingMs ≤ p.ms.toNat := by
  simp only [State.pendingMs, hp]
  split <;> omega

/-! ## Each operation of the state keeps the invariant -/

section
variable {s : State}

/-- The invariant says nothing of the surroundings, `temp` and the response. -/
theorem State.Inv.frame (h : s.Inv) (host : List HostAct) (rst : List Bool) (temp : Option Temp)
    (resp : Option Response) (timer : Timer) :
    ({ s with host := host, rst := rst, temp := temp, resp := resp, timer := timer } : State).Inv :=
  ⟨h.txtWf, h.linesFollowTrace, h.sequencerOk, h.csOk, h.faultHalts, h.timeOk⟩

theorem State.Inv.tick (h : s.Inv) : s.tick.Inv := h.frame _ _ _ _ _

theorem State.Inv.respond (h : s.Inv) (r : Response) : (s.respond r).Inv := h.frame _ _ _ _ _

theorem State.Inv.applyReset (s : State) : s.applyReset.Inv :=
  State.Inv.frame resetMeetsTheInvariant _ _ _ _ _

theorem State.Inv.raiseFault (h : s.Inv) (hb : s.busy = false) (c : FaultCode) : (s.raiseFault c).Inv :=
  ⟨h.txtWf, h.linesFollowTrace, h.sequencerOk, h.csOk, fun _ => hb, h.timeOk⟩

theorem State.Inv.writeTxt (h : s.Inv) (a : BitVec 8) (b : Byte) :
    ({ s with txt := Memory.write s.txt a.toNat b } : State).Inv :=
  ⟨Memory.write_wf a.isLt h.txtWf, h.linesFollowTrace, h.sequencerOk, h.csOk, h.faultHalts, h.timeOk⟩

/-- The host's wait is owed to no delay of the trace. -/
theorem State.Inv.hostWait (h : s.Inv) (hb : s.busy = false) (hp : s.pending = none) (ms : BitVec 16) :
    ({ s with pending := some ⟨ms, .host⟩ } : State).Inv where
  txtWf := h.txtWf
  linesFollowTrace := h.linesFollowTrace
  sequencerOk := by
    refine ⟨fun hb' => absurd hb' (by simp [hb]), fun _ p hp' => ?_⟩
    cases hp'
    rfl
  csOk := h.csOk
  faultHalts := h.faultHalts
  timeOk := by
    have ht := h.timeOk
    rw [State.timeOk, State.pendingMs_eq_zero hp] at ht
    exact ht

/-- A delay that returns has passed at least what is owed. -/
theorem State.Inv.delayReturned (h : s.Inv) {p : PendingDelay} (hp : s.pending = some p) {late : Rat}
    (hl : 0 ≤ late) (tm : Timer) : (s.delayReturned p.ms late tm).Inv where
  txtWf := h.txtWf
  linesFollowTrace := h.linesFollowTrace
  sequencerOk := by
    refine ⟨fun hb => ?_, fun _ _ hp' => nomatch hp'⟩
    obtain ⟨hi, htext, hupc, -⟩ := h.sequencerOk.1 hb
    exact ⟨hi, htext, hupc, fun _ hp' => nomatch hp'⟩
  csOk := h.csOk
  faultHalts := h.faultHalts
  timeOk := by
    have ht : (requestedMs s.trace : Rat) ≤ s.now + (s.pendingMs : Rat) := h.timeOk
    have howed : (s.pendingMs : Rat) ≤ (p.ms.toNat : Rat) := by exact_mod_cast State.pendingMs_le hp
    rw [State.timeOk, State.pendingMs_eq_zero rfl]
    simp only [State.delayReturned_trace, State.delayReturned_now, Nat.cast_zero]
    linarith

theorem State.Inv.emitSet (h : s.Inv) (l : Line) (v : Level) : (s.emitSet l v).Inv where
  txtWf := h.txtWf
  linesFollowTrace := by
    have hl : s.lines = Lines.undriven.after s.trace := h.linesFollowTrace
    rw [State.linesFollowTrace, State.emitSet_trace, Lines.after_append, ← hl]
    rfl
  sequencerOk := h.sequencerOk
  csOk := h.csOk
  faultHalts := h.faultHalts
  timeOk := by
    have ht : (requestedMs s.trace : Rat) ≤ s.now + (s.pendingMs : Rat) := h.timeOk
    rw [State.timeOk, State.emitSet_trace, requestedMs_append]
    exact ht

/-- The delay at `upc`, handed out: what the trace now asks for is what is pending. -/
theorem State.Inv.emitDelay (h : s.Inv) (hb : s.busy = true) (hp : s.pending = none) {ms : BitVec 7}
    (hu : (uprog s.op)[s.upc]? = some (.delay ms)) : (s.emitDelay ms).Inv where
  txtWf := h.txtWf
  linesFollowTrace := by
    have hl : s.lines = Lines.undriven.after s.trace := h.linesFollowTrace
    rw [State.linesFollowTrace, State.emitDelay_trace, Lines.after_append, ← hl]
    rfl
  sequencerOk := by
    refine ⟨fun _ => ?_, fun hb' => absurd hb (by simpa using hb')⟩
    obtain ⟨hi, htext, hupc, -⟩ := h.sequencerOk.1 hb
    refine ⟨hi, htext, hupc, fun p hp' => ?_⟩
    cases hp'
    exact ⟨rfl, ms, hu, rfl⟩
  csOk := h.csOk
  faultHalts := h.faultHalts
  timeOk := by
    have ht : (requestedMs s.trace : Rat) ≤ s.now + (s.pendingMs : Rat) := h.timeOk
    have howed : (s.emitDelay ms).pendingMs = ms.toNat := by
      simp only [State.pendingMs, State.emitDelay_pending, if_true, BitVec.toNat_setWidth]
      omega
    rw [State.pendingMs_eq_zero hp] at ht
    rw [State.timeOk, howed, State.emitDelay_trace, State.emitDelay_now, requestedMs_append]
    simp only [requestedMs, Nat.add_zero, Nat.cast_add, Nat.cast_zero] at ht ⊢
    linarith

/-- A completed micro-operation moves `upc` and `cs` on together, and the last one ends the operation. -/
theorem State.Inv.retire (h : s.Inv) (hb : s.busy = true) (hp : s.pending = none) : s.retire.Inv where
  txtWf := by simpa [State.txtWf] using h.txtWf
  linesFollowTrace := by simpa [State.linesFollowTrace] using h.linesFollowTrace
  sequencerOk := by
    obtain ⟨hi, htext, hupc, -⟩ := h.sequencerOk.1 hb
    refine ⟨fun hb' => ?_, by simp [hp]⟩
    have hne : s.upc + 1 ≠ (uprog s.op).length := fun he => by simp [State.retire_busy, he] at hb'
    simp only [State.retire_op, State.retire_upc, State.retire_pending, hp]
    exact ⟨hi, htext, by omega, fun _ hp' => nomatch hp'⟩
  csOk := by
    have hc : s.cs = opPhase s.op s.upc := h.csOk.1 hb
    have hc' : s.retire.cs = opPhase s.op (s.upc + 1) := by rw [State.retire_cs, hc, csAfter_opPhase]
    refine ⟨fun _ => by rw [hc', State.retire_op, State.retire_upc, opPhase], fun hb' => .inr ?_⟩
    have he : s.upc + 1 = (uprog s.op).length := by
      by_contra hne
      simp [State.retire_busy, hne, hb] at hb'
    rw [hc', he, opPhase_end]
  faultHalts := fun hf => by
    rw [State.retire_fault] at hf
    exact absurd (h.faultHalts hf) (by simp [hb])
  timeOk := by
    have ht := h.timeOk
    rw [State.timeOk, State.pendingMs_eq_zero hp] at ht
    rw [State.timeOk, State.pendingMs_eq_zero (by rw [State.retire_pending, hp]), State.retire_trace,
      State.retire_now]
    exact ht

/-- An accepted operation starts at position 0 with `cs` where R37 puts it; an empty one is over at once, and it is
not `INIT`. -/
theorem State.Inv.accept (h : s.Inv) (hp : s.pending = none) (hf : s.fault = none) {i : Instr} {text : List Byte}
    (hi : isBusOperation i = true) (htext : text.length < 256) {c : CtrlState} (hc : c = opPhase ⟨i, text⟩ 0) :
    (({ s with cs := c } : State).accept i text).Inv where
  txtWf := by simpa [State.txtWf] using h.txtWf
  linesFollowTrace := by simpa [State.linesFollowTrace] using h.linesFollowTrace
  sequencerOk := by
    refine ⟨fun hb => ?_, by simp [hp]⟩
    have hne : uprog ⟨i, text⟩ ≠ [] := by simpa [State.accept_busy] using hb
    simp only [State.accept_op, State.accept_upc, State.accept_pending, hp]
    exact ⟨hi, htext, List.length_pos_iff.2 hne, fun _ hp' => nomatch hp'⟩
  csOk := by
    simp only [State.csOk, State.accept_cs, State.accept_op, State.accept_upc]
    refine ⟨fun _ => hc, fun hb => .inr ?_⟩
    have hnil : uprog ⟨i, text⟩ = [] := by simpa [State.accept_busy] using hb
    rw [hc, ← opPhase_end ⟨i, text⟩, hnil, List.length_nil]
  faultHalts := fun hf' => by simp [hf] at hf'
  timeOk := by
    have ht := h.timeOk
    rw [State.timeOk, State.pendingMs_eq_zero hp] at ht
    rw [State.timeOk, State.pendingMs_eq_zero (by rw [State.accept_pending, hp]), State.accept_trace,
      State.accept_now]
    exact ht

/-- A request of an idle block, whatever it does. -/
theorem State.Inv.request (h : s.Inv) (hp : s.pending = none) {t : State} (hreq : RequestCase s t) : t.Inv := by
  cases hreq with
  | converted code ht => exact ht ▸ h.frame _ _ _ _ _
  | faulted hb c ht => exact ht ▸ h.raiseFault hb c
  | halted _ c _ ht => exact ht ▸ h.respond _
  | initAccepted _ hf _ ht => exact ht ▸ h.accept hp hf (i := .init) rfl (by simp) rfl
  | opAccepted _ hf hc i text hi hn htext ht =>
    exact ht ▸ h.accept hp hf hi htext (by rw [hc, opPhase, if_neg hn])

/-! ## What the invariant says of whose delay is pending -/

theorem State.Inv.busy_of_sequencer_delay (h : s.Inv) {p : PendingDelay} (hp : s.pending = some p)
    (ho : p.owner = .sequencer) : s.busy = true := by
  by_contra hb
  have howner := h.sequencerOk.2 (by simpa using hb) p hp
  simp [ho] at howner

theorem State.Inv.idle_of_host_delay (h : s.Inv) {p : PendingDelay} (hp : s.pending = some p)
    (ho : p.owner = .host) : s.busy = false := by
  by_contra hb
  obtain ⟨-, -, -, hpending⟩ := h.sequencerOk.1 (by simpa using hb)
  obtain ⟨howner, -⟩ := hpending p hp
  simp [ho] at howner

theorem State.Inv.uprog_upc_ne_none (h : s.Inv) (hb : s.busy = true) : (uprog s.op)[s.upc]? ≠ none := by
  obtain ⟨-, -, hupc, -⟩ := h.sequencerOk.1 hb
  simpa using hupc

end

/-! ## Every step keeps the invariant -/

/-- Settles O12: each agent's step is made of operations that keep the invariant. -/
theorem stepKeepsTheInvariant : Obligations.StepKeepsTheInvariant := by
  intro s t hinv hstep
  have htick := hinv.tick
  cases step_cases hstep with
  | reset _ h => exact h ▸ State.Inv.applyReset s
  | stalled _ _ _ _ h => exact h ▸ htick
  | returned _ p hp ho late tm hl h =>
    exact h ▸ (htick.delayReturned hp hl tm).retire (hinv.busy_of_sequencer_delay hp ho) rfl
  | waited _ p hp _ late tm hl h => exact h ▸ htick.delayReturned hp hl tm
  | ended _ _ hb hu => exact absurd hu (hinv.uprog_upc_ne_none hb)
  | setDone _ hp hb l v _ h => exact h ▸ (htick.emitSet l v).retire hb hp
  | delayHanded _ hp hb _ hu h => exact h ▸ htick.emitDelay hb hp hu
  | idle _ _ _ _ h => exact h ▸ htick
  | request _ hp _ _ rest _ h => exact (htick.frame rest _ _ _ _).request hp (request_cases h)
  | writeTxt _ _ _ a b rest _ h => exact h ▸ (htick.frame rest _ _ _ _).writeTxt a b
  | wait _ hp hb ms rest _ h => exact h ▸ (htick.frame rest _ _ _ _).hostWait hb hp ms

/-! ## Where `cs` moves (R37) -/

/-- A completed micro-operation moves `cs` at two positions of `INIT`, each time one value on. -/
theorem State.Inv.cs_cases_of_completed {s t : State} (h : s.Inv) (hb : s.busy = true)
    (hcs : t.cs = csAfter s.op (s.upc + 1) s.cs) (hupc : t.upc = s.upc + 1) (hp : t.pending = none) :
    t.cs = s.cs ∨
    (s.cs = .forcingEightBit ∧ t.cs = .fourBitMode ∧ s.busy = true ∧ s.op.instr = .init ∧ t.upc = 36 ∧
      t.pending = none) ∨
    (s.cs = .fourBitMode ∧ t.cs = .configured ∧ s.busy = true ∧ s.op.instr = .init ∧ t.upc = 105 ∧
      t.pending = none) := by
  rw [hcs, hupc, csAfter_eq]
  by_cases hi : s.op.instr = .init
  · have hc : s.cs = initPhase s.upc := by simpa [hi] using h.csOk.1 hb
    rw [if_pos hi, hc, initPhase_eq]
    by_cases h36 : s.upc + 1 = 36
    · exact .inr (.inl ⟨if_pos (by omega), if_pos h36, hb, hi, h36, hp⟩)
    · by_cases h105 : s.upc + 1 = 105
      · exact .inr (.inr ⟨by rw [if_neg (by omega), if_pos (by omega)], by rw [if_neg h36, if_pos h105], hb, hi,
          h105, hp⟩)
      · exact .inl (by rw [if_neg h36, if_neg h105])
  · exact .inl (if_neg hi)

/-- A request moves `cs` only where `INIT` is accepted, which has something to do. -/
theorem RequestCase.cs_cases {s t : State} (h : RequestCase s t) :
    t.cs = s.cs ∨
    (s.cs = .unknown ∧ t.cs = .forcingEightBit ∧ s.busy = false ∧ t.busy = true ∧ t.op.instr = .init ∧ t.upc = 0 ∧
      t.trace = s.trace) := by
  cases h with
  | converted _ h => exact .inl (h ▸ rfl)
  | faulted _ _ h => exact .inl (h ▸ rfl)
  | halted _ _ _ h => exact .inl (h ▸ rfl)
  | initAccepted hb _ hc h =>
    have hne : uprog ⟨.init, []⟩ ≠ [] := fun hnil => nomatch hnil
    exact .inr (by simp [h, hb, hc, hne, State.accept_busy])
  | opAccepted _ _ _ _ _ _ _ _ h => exact .inl (by simp [h])

/-- Settles O13: `cs` moves where a micro-operation of `INIT` completes and where `INIT` is accepted, nowhere else. -/
theorem csMovesOnlyInsideInit : Obligations.CsMovesOnlyInsideInit := by
  intro s t hinv hr hstep
  cases step_cases hstep with
  | reset hr' => simp [hr] at hr'
  | stalled _ _ _ _ h => exact .inl (h ▸ rfl)
  | returned _ p hp ho _ _ _ h =>
    exact (hinv.cs_cases_of_completed (t := t) (hinv.busy_of_sequencer_delay hp ho) (by simp [h]) (by simp [h])
      (by simp [h])).imp_right .inr
  | waited _ _ _ _ _ _ _ h => exact .inl (h ▸ rfl)
  | ended _ _ _ _ h => exact .inl (h ▸ rfl)
  | setDone _ hp hb _ _ _ h =>
    exact (hinv.cs_cases_of_completed (t := t) hb (by simp [h]) (by simp [h]) (by simp [h, hp])).imp_right .inr
  | delayHanded _ _ _ _ _ h => exact .inl (h ▸ rfl)
  | idle _ _ _ _ h => exact .inl (h ▸ rfl)
  | request _ _ _ _ _ _ h => exact (request_cases h).cs_cases.imp_right .inl
  | writeTxt _ _ _ _ _ _ _ h => exact .inl (h ▸ rfl)
  | wait _ _ _ _ _ _ h => exact .inl (h ▸ rfl)

/-! ## What a step of a busy block does to `upc`, the operand latches and `TXT` -/

/-- A completed micro-operation moves `upc` on by one, and ends the operation exactly when it was the last (R41). -/
theorem State.retire_advances {s : State} (hb : s.busy = true) (hp : s.pending = none) :
    s.retire.upc = s.upc + 1 ∧ s.retire.pending = none ∧
      (s.retire.busy = false ↔ s.retire.upc = (uprog s.op).length) := by
  simp [State.retire_busy, hb, hp]

/-- Settles O14: a step of a busy block leaves a delay pending or retires the micro-operation at `upc`. -/
theorem upcAdvancesByOne : Obligations.UpcAdvancesByOne := by
  intro s t hinv hb hr hstep
  have notIdle : s.busy ≠ false := by simp [hb]
  cases step_cases hstep with
  | reset hr' => simp [hr] at hr'
  | stalled _ _ hp _ h => exact .inl (by simp [h, hp, hb])
  | returned _ p _ _ late tm _ h =>
    subst h
    exact .inr (State.retire_advances (s := s.tick.delayReturned p.ms late tm) hb rfl)
  | waited _ _ hp ho => exact absurd (hinv.idle_of_host_delay hp ho) notIdle
  | ended _ _ _ hu => exact absurd hu (hinv.uprog_upc_ne_none hb)
  | setDone _ hp _ l v _ h =>
    subst h
    exact .inr (State.retire_advances (s := s.tick.emitSet l v) hb hp)
  | delayHanded _ _ _ _ _ h => exact .inl (by simp [h, hb])
  | idle _ _ hb' => exact absurd hb' notIdle
  | request _ _ hb' => exact absurd hb' notIdle
  | writeTxt _ _ hb' => exact absurd hb' notIdle
  | wait _ _ hb' => exact absurd hb' notIdle

/-- Settles O15: only a request latches operands and only the host writes `TXT`, and neither happens while busy. -/
theorem operandsHoldWhileBusy : Obligations.OperandsHoldWhileBusy := by
  intro s t hb hr hstep
  have notIdle : s.busy ≠ false := by simp [hb]
  cases step_cases hstep with
  | reset hr' => simp [hr] at hr'
  | stalled _ _ _ _ h => simp [h]
  | returned _ _ _ _ _ _ _ h => simp [h]
  | waited _ _ _ _ _ _ _ h => simp [h]
  | ended _ _ _ _ h => simp [h]
  | setDone _ _ _ _ _ _ h => simp [h]
  | delayHanded _ _ _ _ _ h => simp [h]
  | idle _ _ hb' => exact absurd hb' notIdle
  | request _ _ hb' => exact absurd hb' notIdle
  | writeTxt _ _ hb' => exact absurd hb' notIdle
  | wait _ _ hb' => exact absurd hb' notIdle

/-! ## Which steps change a line (R32, R33) -/

/-- No request drives a line: that is the sequencer's to do. -/
theorem RequestCase.lines_eq {s t : State} (h : RequestCase s t) : t.lines = s.lines := by
  cases h with
  | converted _ h => rw [h, State.respond_lines]
  | faulted _ _ h => rw [h, State.raiseFault_lines]
  | halted _ _ _ h => rw [h, State.respond_lines]
  | initAccepted _ _ _ h => rw [h, State.accept_lines]
  | opAccepted _ _ _ _ _ _ _ _ h => rw [h, State.accept_lines]

/-- Settles O17: every other case of a step leaves the lines as they are. -/
theorem linesChangeOnlyBySet : Obligations.LinesChangeOnlyBySet := by
  intro s t hr hstep hne
  cases step_cases hstep with
  | reset hr' => simp [hr] at hr'
  | setDone _ hp hb l v hu h =>
    have hget : ∀ l', t.lines.get l' = if l' = l then latchOf v else s.lines.get l' := by
      intro l'
      rw [h, State.retire_lines, State.emitSet_lines, Lines.get_put, State.tick_lines]
    exact ⟨hb, hp, l, v, hu, by rw [hget, if_pos rfl], fun l' hl' => by rw [hget, if_neg hl']⟩
  | stalled _ _ _ _ h => exact absurd (by simp [h]) hne
  | returned _ _ _ _ _ _ _ h => exact absurd (by simp [h]) hne
  | waited _ _ _ _ _ _ _ h => exact absurd (by simp [h]) hne
  | ended _ _ _ _ h => exact absurd (by simp [h]) hne
  | delayHanded _ _ _ _ _ h => exact absurd (by simp [h]) hne
  | idle _ _ _ _ h => exact absurd (by simp [h]) hne
  | request _ _ _ _ _ _ h => exact absurd (request_cases h).lines_eq hne
  | writeTxt _ _ _ _ _ _ _ h => exact absurd (by simp [h]) hne
  | wait _ _ _ _ _ _ h => exact absurd (by simp [h]) hne

/-! ## No step reads a line (R32)

Whatever is done to a state is done alike at other line levels. That is kept by composing operations, so it is proved of
each operation once. -/

/-- The state with the lines at other levels. -/
def State.withLines (s : State) (L : Lines) : State := { s with lines := L }

/-- `f` reads no line: at other levels it answers the same next state but for the levels. -/
def LineBlind (f : State → Result) : Prop :=
  ∀ (s t : State) (L : Lines), f s = .next t → ∃ L', f (s.withLines L) = .next (t.withLines L')

theorem LineBlind.andThen {f g : State → Result} (hf : LineBlind f) (hg : LineBlind g) :
    LineBlind fun s => andThen (f s) g := by
  intro s t L h
  obtain ⟨r, hr, ht⟩ := andThen_eq_next h
  obtain ⟨L₁, h₁⟩ := hf s r L hr
  obtain ⟨L₂, h₂⟩ := hg r t L₁ ht
  refine ⟨L₂, ?_⟩
  simp only [h₁, andThen_next, h₂]

/-- An update that commutes with changing the levels reads no line. -/
theorem LineBlind.of_commutes {f : State → State} (hf : ∀ s L, ∃ L', f (s.withLines L) = (f s).withLines L') :
    LineBlind fun s => .next (f s) := by
  intro s t L h
  cases h
  obtain ⟨L', h'⟩ := hf s L
  exact ⟨L', congrArg Host.Outcome.next h'⟩

section
variable (s : State) (L : Lines)

/-! ### The fields and the updates of the state -/

@[simp] theorem State.withLines_cs : (s.withLines L).cs = s.cs := rfl
@[simp] theorem State.withLines_busy : (s.withLines L).busy = s.busy := rfl
@[simp] theorem State.withLines_upc : (s.withLines L).upc = s.upc := rfl
@[simp] theorem State.withLines_op : (s.withLines L).op = s.op := rfl
@[simp] theorem State.withLines_pending : (s.withLines L).pending = s.pending := rfl
@[simp] theorem State.withLines_host : (s.withLines L).host = s.host := rfl
@[simp] theorem State.withLines_resetAsserted : (s.withLines L).resetAsserted = s.resetAsserted := rfl

theorem State.accept_withLines (i : Instr) (text : List Byte) :
    (s.withLines L).accept i text = (s.accept i text).withLines L := by
  rw [State.accept, State.accept, apply_ite (State.withLines · L)]
  rfl

theorem State.retire_withLines : (s.withLines L).retire = s.retire.withLines L := by
  rw [State.retire, State.retire, apply_ite (State.withLines · L)]
  rfl

theorem State.awaitDelay_withLines (ms : BitVec 16) :
    (s.withLines L).awaitDelay ms = (s.awaitDelay ms).map (State.withLines · L) := by
  rw [State.awaitDelay, State.awaitDelay, Option.map_map]
  rfl

theorem State.collaborator_withLines (p : PendingDelay) :
    (s.withLines L).collaborator p = (s.collaborator p).withLines L := by
  simp only [State.collaborator, State.awaitDelay_withLines]
  cases s.awaitDelay p.ms with
  | none => rfl
  | some t =>
    cases p.owner with
    | sequencer => exact State.retire_withLines t L
    | host => rfl

end

/-! ### The instructions -/

theorem performSet_lineBlind (l : Line) (v : Level) : LineBlind (performSet l v) := by
  intro s t L h
  unfold performSet at h ⊢
  split at h <;> cases h
  exact ⟨L.put l v, if_pos ‹_›⟩

theorem performDelay_lineBlind (ms : BitVec 7) : LineBlind (performDelay ms) := by
  intro s t L h
  unfold performDelay at h ⊢
  split at h <;> cases h
  exact ⟨L, if_pos ‹_›⟩

theorem runMicroOps_lineBlind (us : List MicroOp) : LineBlind (runMicroOps us) := by
  induction us with
  | nil => exact LineBlind.of_commutes (f := id) fun _ L => ⟨L, rfl⟩
  | cons u us ih =>
    cases u with
    | set l v => exact (performSet_lineBlind l v).andThen ih
    | delay ms =>
      refine (performDelay_lineBlind ms).andThen fun s t L h => ?_
      simp only [State.awaitDelay_withLines]
      cases ha : s.awaitDelay (ms.setWidth 16) with
      | none =>
        simp only [ha] at h
        cases h
        exact ⟨L, rfl⟩
      | some r =>
        simp only [ha] at h
        exact ih r t L h

/-- The checks on a request read `busy`, `fault` and `cs`. -/
theorem busRequest_lineBlind (own : CtrlState → Option FaultCode) {go : State → State}
    (hgo : ∀ s L, go (s.withLines L) = (go s).withLines L) : LineBlind fun s => busRequest (own s.cs) go s := by
  intro s t L h
  refine ⟨L, ?_⟩
  obtain ⟨hb, ⟨c, hf, rfl⟩ | ⟨c, hf, hc, rfl⟩ | ⟨hf, hc, rfl⟩⟩ := busRequest_eq_next h
  · exact busRequest_faulted hb hf
  · simp only [State.withLines_cs, hc]
    exact busRequest_raises hb hf
  · simp only [State.withLines_cs, hc, ← hgo]
    exact busRequest_accepts hb hf

theorem execIllegal_lineBlind (w : RequestWord) : LineBlind (execIllegal w) := by
  intro s t L h
  unfold execIllegal at h ⊢
  split at h <;> cases h
  exact ⟨L, if_neg ‹_›⟩

/-- "No operation reads a line latch" (R32). -/
theorem exec_lineBlind (i : Instr) : LineBlind (exec i) := by
  cases i with
  | init =>
    exact busRequest_lineBlind initFault fun s L =>
      State.accept_withLines { s with cs := .forcingEightBit } L _ _
  | command b => exact busRequest_lineBlind busOpFault fun s L => State.accept_withLines s L _ _
  | writeData b => exact busRequest_lineBlind busOpFault fun s L => State.accept_withLines s L _ _
  | setPosition row col => exact busRequest_lineBlind busOpFault fun s L => State.accept_withLines s L _ _
  | print row col len => exact busRequest_lineBlind busOpFault fun s L => State.accept_withLines s L _ _
  | clear => exact busRequest_lineBlind busOpFault fun s L => State.accept_withLines s L _ _
  | convert code => exact LineBlind.of_commutes fun _ L => ⟨L, rfl⟩
  | illegal w => exact execIllegal_lineBlind w
  | set l v => exact performSet_lineBlind l v
  | delay ms => exact performDelay_lineBlind ms
  | latch n => exact runMicroOps_lineBlind _
  | sendByte b => exact runMicroOps_lineBlind _
  | nibWake => exact runMicroOps_lineBlind _
  | nib4Bit => exact runMicroOps_lineBlind _
  | cmdFunctionSet => exact runMicroOps_lineBlind _
  | cmdDisplayCtrl => exact runMicroOps_lineBlind _
  | cmdClear => exact runMicroOps_lineBlind _
  | cmdEntryMode => exact runMicroOps_lineBlind _
  | cmdAddrRow0 c => exact runMicroOps_lineBlind _
  | cmdAddrRow1 c => exact runMicroOps_lineBlind _
  | dataByte d => exact runMicroOps_lineBlind _

/-! ### The agents -/

theorem sequencerStep_lineBlind : LineBlind sequencerStep := by
  have retired : LineBlind fun t => .next (if t.pending.isSome then t else t.retire) := by
    refine LineBlind.of_commutes fun t L => ⟨L, ?_⟩
    rw [State.withLines_pending, State.retire_withLines, apply_ite (State.withLines · L)]
  intro s t L h
  simp only [sequencerStep, State.withLines_op, State.withLines_upc] at h ⊢
  cases hu : (uprog s.op)[s.upc]? with
  | none =>
    simp only [hu] at h
    cases h
    exact ⟨L, rfl⟩
  | some u =>
    simp only [hu] at h
    exact (exec_lineBlind u.toInstr).andThen retired s t L h

theorem hostStep_lineBlind : LineBlind hostStep := by
  intro s t L h
  simp only [hostStep, State.withLines_host] at h ⊢
  cases hh : s.host with
  | nil =>
    simp only [hh] at h
    cases h
    exact ⟨L, rfl⟩
  | cons act rest =>
    simp only [hh] at h
    cases act with
    | request w => exact exec_lineBlind (decodeRequest w) { s with host := rest } t L h
    | writeTxt a b =>
      cases h
      exact ⟨L, rfl⟩
    | wait ms =>
      cases h
      exact ⟨L, rfl⟩

theorem agentStep_lineBlind : LineBlind agentStep := by
  intro s t L h
  cases hp : s.pending with
  | some p =>
    simp only [agentStep, hp] at h
    cases h
    exact ⟨L, by simp [agentStep, hp, State.collaborator_withLines]⟩
  | none =>
    cases hb : s.busy with
    | true =>
      obtain ⟨L', h'⟩ := sequencerStep_lineBlind s t L (by simpa [agentStep, hp, hb] using h)
      exact ⟨L', by simpa [agentStep, hp, hb] using h'⟩
    | false =>
      obtain ⟨L', h'⟩ := hostStep_lineBlind s t L (by simpa [agentStep, hp, hb] using h)
      exact ⟨L', by simpa [agentStep, hp, hb] using h'⟩

theorem step_lineBlind : LineBlind step := by
  intro s t L h
  cases hr : s.resetAsserted with
  | true =>
    obtain rfl : s.applyReset = t := by simpa [step, cycle, hr] using h
    refine ⟨Lines.undriven, ?_⟩
    simp only [step, cycle, State.withLines_resetAsserted, hr, if_true]
    rfl
  | false =>
    obtain ⟨L', h'⟩ := agentStep_lineBlind s.tick t L (by simpa [step, cycle, hr] using h)
    refine ⟨L', ?_⟩
    simp only [step, cycle, State.withLines_resetAsserted, hr, Bool.false_eq_true, if_false]
    exact h'

/-- Settles O18: reset puts the lines where R50 has them, and no agent's step reads one. -/
theorem lineLevelsAreNeverRead : Obligations.LineLevelsAreNeverRead := step_lineBlind

end Sys2Proof.Machine

/-! # The text buffer, the order of transfers and the trace (20_memory.md): the host's acts, program order, and nibbles
in pairs -/

namespace Sys2Proof.Machine

/-! ## The host's acts (R61, R63, R271) -/

/-- The step of an idle block is the host's. -/
theorem step_of_idle {s : State} (hr : s.resetAsserted = false) (h : s.idle) : step s = hostStep s.tick := by
  obtain ⟨hb, hp⟩ := h
  simp [step, cycle, hr, agentStep, hb, hp]

/-- Settles O8: the host's next act decides what an idle block's step is. -/
theorem stepDoesTheHostsActs : Obligations.StepDoesTheHostsActs := by
  intro s rest hr hidle
  rw [step_of_idle hr hidle]
  refine ⟨fun a b hh hwf => ?_, fun ms hh => ?_, fun hh => ?_⟩
  · refine ⟨{ s.tick with host := rest, txt := Memory.write s.txt a.toNat b }, by simp [hostStep, hh], rfl,
      Memory.write_wf a.isLt hwf, fun a' => ?_⟩
    simp only [txtRead, Memory.read_write hwf, BitVec.toNat_inj, eq_comm (a := a)]
  · simp [hostStep, hh, State.tick]
  · simp [hostStep, hh, State.tick]

/-! ## The trace and `now` (R46, R78) -/

/-- The micro-operation whose turn it is: the one at `upc` of a busy block that waits for no delay. -/
def State.due (s : State) : Option MicroOp :=
  if s.busy = true ∧ s.pending = none then (uprog s.op)[s.upc]? else none

theorem State.due_eq {s : State} (hb : s.busy = true) (hp : s.pending = none) : s.due = (uprog s.op)[s.upc]? :=
  if_pos ⟨hb, hp⟩

theorem State.due_of_pending {s : State} {p : PendingDelay} (hp : s.pending = some p) : s.due = none := by
  simp [State.due, hp]

theorem State.due_of_not_busy {s : State} (hb : s.busy = false) : s.due = none := by
  simp [State.due, hb]

theorem State.due_eq_some {s : State} {u : MicroOp} (h : s.due = some u) :
    s.busy = true ∧ s.pending = none ∧ (uprog s.op)[s.upc]? = some u := by
  obtain ⟨⟨hb, hp⟩, hu⟩ := Option.ite_none_right_eq_some.1 h
  exact ⟨hb, hp, hu⟩

/-- No request sends an event: that is the sequencer's to do. -/
theorem RequestCase.trace_eq {s t : State} (h : RequestCase s t) : t.trace = s.trace := by
  cases h with
  | converted _ h => rw [h, State.respond_trace]
  | faulted _ _ h => rw [h, State.raiseFault_trace]
  | halted _ _ _ h => rw [h, State.respond_trace]
  | initAccepted _ _ _ h => rw [h, State.accept_trace]
  | opAccepted _ _ _ _ _ _ _ _ h => rw [h, State.accept_trace]

/-- A request takes no time. -/
theorem RequestCase.now_eq {s t : State} (h : RequestCase s t) : t.now = s.now := by
  cases h with
  | converted _ h => rw [h, State.respond_now]
  | faulted _ _ h => rw [h, State.raiseFault_now]
  | halted _ _ _ h => rw [h, State.respond_now]
  | initAccepted _ _ _ h => rw [h, State.accept_now]
  | opAccepted _ _ _ _ _ _ _ _ h => rw [h, State.accept_now]

/-- A step records the micro-operation whose turn it is, and nothing when it is nobody's. -/
theorem step_trace {s t : State} (hr : s.resetAsserted = false) (hstep : step s = .next t) :
    t.trace = s.trace ++ s.due.toList := by
  cases step_cases hstep with
  | reset hr' => simp [hr] at hr'
  | stalled _ _ hp _ h => simp [h, State.due_of_pending hp]
  | returned _ _ hp _ _ _ _ h => simp [h, State.due_of_pending hp]
  | waited _ _ hp _ _ _ _ h => simp [h, State.due_of_pending hp]
  | ended _ hp hb hu h => simp [h, State.due_eq hb hp, hu]
  | setDone _ hp hb _ _ hu h => simp [h, State.due_eq hb hp, hu]
  | delayHanded _ hp hb _ hu h => simp [h, State.due_eq hb hp, hu]
  | idle _ _ hb _ h => simp [h, State.due_of_not_busy hb]
  | request _ _ hb _ _ _ h => simp [(request_cases h).trace_eq, State.due_of_not_busy hb]
  | writeTxt _ _ hb _ _ _ _ h => simp [h, State.due_of_not_busy hb]
  | wait _ _ hb _ _ _ h => simp [h, State.due_of_not_busy hb]

theorem State.now_le_delayReturned (s : State) (ms : BitVec 16) {late : Rat} (hl : 0 ≤ late) (tm : Timer) :
    s.now ≤ (s.delayReturned ms late tm).now := by
  rw [State.delayReturned_now]
  have : (0 : Rat) ≤ ms.toNat := Nat.cast_nonneg _
  linarith

/-- Only a delay that returns moves `now`, and forward. -/
theorem step_now_le {s t : State} (hr : s.resetAsserted = false) (hstep : step s = .next t) : s.now ≤ t.now := by
  cases step_cases hstep with
  | reset hr' => simp [hr] at hr'
  | returned _ p _ _ _ tm hl h =>
    rw [h, State.retire_now]
    exact s.tick.now_le_delayReturned p.ms hl tm
  | waited _ p _ _ _ tm hl h => exact h ▸ s.tick.now_le_delayReturned p.ms hl tm
  | stalled _ _ _ _ h => simp [h]
  | ended _ _ _ _ h => simp [h]
  | setDone _ _ _ _ _ _ h => simp [h]
  | delayHanded _ _ _ _ _ h => simp [h]
  | idle _ _ _ _ h => simp [h]
  | request _ _ _ _ _ _ h => exact (request_cases h).now_eq.ge
  | writeTxt _ _ _ _ _ _ _ h => simp [h]
  | wait _ _ _ _ _ _ h => simp [h]

/-- Settles O19: the trace grows by the micro-operation whose turn it is. -/
theorem traceGrowsInProgramOrder : Obligations.TraceGrowsInProgramOrder := by
  intro s t hr hstep
  have htrace := step_trace hr hstep
  refine ⟨?_, fun u hb hp hu => ?_, step_now_le hr hstep⟩
  · cases hd : s.due with
    | none => exact .inl (by simpa [hd] using htrace)
    | some u =>
      obtain ⟨hb, hp, hu⟩ := State.due_eq_some hd
      exact .inr ⟨hb, hp, u, hu, by simpa [hd] using htrace⟩
  · simpa [State.due_eq hb hp, hu] using htrace

/-! ## The lines after a micro-program (R104, R105, R134) -/

/-- What a bit leaves on its line (R69). -/
theorem latchOf_bitLevel (b : Bool) : latchOf (bitLevel b) = if b then .h else .l := by
  cases b <;> rfl

theorem Lines.after_latchProgram (L : Lines) (n : Nibble) : L.after (latchProgram n) = nibbleLines L n := by
  simp only [latchProgram, Lines.after, Lines.put, latchOf_bitLevel]
  rfl

/-- A byte leaves its low nibble on the data lines. -/
theorem Lines.after_sendByteProgram (L : Lines) (b : Byte) :
    L.after (sendByteProgram b) = nibbleLines L (loNibble b) := by
  rw [sendByteProgram, Lines.after_append, Lines.after_latchProgram, Lines.after_latchProgram]
  rfl

theorem Lines.after_commandProgram (L : Lines) (b : Byte) : L.after (commandProgram b) = byteLines L .l b := by
  have hsettle : ∀ M : Lines, M.after (if b = 0x01 then [.delay 2] else []) = M := fun M => by split <;> rfl
  rw [commandProgram, Lines.after_append, hsettle, Lines.after, Lines.after_sendByteProgram]
  rfl

theorem Lines.after_writeDataProgram (L : Lines) (b : Byte) : L.after (writeDataProgram b) = byteLines L .h b := by
  rw [writeDataProgram, Lines.after, Lines.after_sendByteProgram]
  rfl

/-! ## What the bus observer reads (R141) -/

/-- The data lines carry the nibble they were set to (R104). -/
theorem busNibble_nibbleLines (L : Lines) (n : Nibble) : busNibble (nibbleLines L n) = n := by
  have hbit : ∀ b : Bool, ((if b then Latch.h else Latch.l) == .h) = b := by decide
  simp only [busNibble, nibbleLines, hbit]
  revert n
  decide

/-- A latch cycle is read as its nibble, with `RS` as it stands. -/
theorem observe_latchProgram_append (L : Lines) (n : Nibble) (us : List MicroOp) :
    observe L false (latchProgram n ++ us) = ⟨L.rs, n⟩ :: observe (nibbleLines L n) false us := by
  have hcycle : observe L false (latchProgram n ++ us) =
      ⟨L.rs, busNibble (L.after (latchProgram n))⟩ :: observe (L.after (latchProgram n)) false us := rfl
  rw [hcycle, Lines.after_latchProgram, busNibble_nibbleLines]

theorem observe_sendByteProgram_append (L : Lines) (b : Byte) (us : List MicroOp) :
    observe L false (sendByteProgram b ++ us) =
      ⟨L.rs, hiNibble b⟩ :: ⟨L.rs, loNibble b⟩ :: observe (nibbleLines L (loNibble b)) false us := by
  rw [sendByteProgram, List.append_assoc, observe_latchProgram_append, observe_latchProgram_append]
  rfl

theorem observe_commandProgram_append (L : Lines) (b : Byte) (us : List MicroOp) :
    observe L false (commandProgram b ++ us) =
      ⟨.l, hiNibble b⟩ :: ⟨.l, loNibble b⟩ :: observe (byteLines L .l b) false us := by
  have hsettle : ∀ M : Lines, observe M false ((if b = 0x01 then [.delay 2] else []) ++ us) = observe M false us :=
    fun M => by split <;> rfl
  have hrs : observe L false (commandProgram b ++ us) = observe (L.put .rs .l) false
      (sendByteProgram b ++ ((if b = 0x01 then [.delay 2] else []) ++ us)) := by
    rw [commandProgram, List.append_assoc]
    rfl
  rw [hrs, observe_sendByteProgram_append, hsettle]
  rfl

theorem observe_writeDataProgram_append (L : Lines) (b : Byte) (us : List MicroOp) :
    observe L false (writeDataProgram b ++ us) =
      ⟨.h, hiNibble b⟩ :: ⟨.h, loNibble b⟩ :: observe (byteLines L .h b) false us := by
  have hrs : observe L false (writeDataProgram b ++ us) =
      observe (L.put .rs .h) false (sendByteProgram b ++ us) := rfl
  rw [hrs, observe_sendByteProgram_append]
  rfl

/-- A text is read byte for byte, each as its two nibbles with `RS` high. -/
theorem observe_text (L : Lines) (text : List Byte) :
    observe L false (text.flatMap writeDataProgram) =
      text.flatMap fun ch => [⟨.h, hiNibble ch⟩, ⟨.h, loNibble ch⟩] := by
  induction text generalizing L with
  | nil => rfl
  | cons ch text ih => simp [observe_writeDataProgram_append, ih]

/-! ## Latch cycles come in pairs (R72, R313) -/

theorem latchCycles_commandProgram_append_text (b : Byte) (text : List Byte) :
    latchCycles (commandProgram b ++ text.flatMap writeDataProgram) = 2 + 2 * text.length := by
  rw [latchCycles, observe_commandProgram_append, observe_text]
  simp +arith [List.length_flatMap]

theorem latchCycles_commandProgram (b : Byte) : latchCycles (commandProgram b) = 2 := by
  simpa using latchCycles_commandProgram_append_text b []

theorem latchCycles_writeDataProgram (b : Byte) : latchCycles (writeDataProgram b) = 2 := by
  rw [latchCycles, ← List.append_nil (writeDataProgram b), observe_writeDataProgram_append]
  rfl

theorem latchCycles_initProgram (bl : Bool) : latchCycles (initProgram bl) = 12 := by
  cases bl <;> decide

/-- A position command is a `PRINT` of no text (R207). -/
theorem setPositionProgram_eq (row col : Byte) : setPositionProgram row col = printProgram row col [] := by
  unfold setPositionProgram printProgram
  cases posCmd row col <;> simp

/-- A micro-program sends an even number of nibbles, and parks the strobe low when it sends any. -/
structure NibblesPaired (us : List MicroOp) : Prop where
  even : latchCycles us % 2 = 0
  strobeLow : us ≠ [] → ∀ L : Lines, (L.after us).e = .l

theorem NibblesPaired.nil : NibblesPaired [] := ⟨rfl, fun h => absurd rfl h⟩

/-- Writing a text leaves the strobe low where it was low. -/
theorem Lines.after_text_e (text : List Byte) {L : Lines} (h : L.e = .l) :
    (L.after (text.flatMap writeDataProgram)).e = .l := by
  induction text generalizing L with
  | nil => exact h
  | cons ch text ih =>
    rw [List.flatMap_cons, Lines.after_append, Lines.after_writeDataProgram]
    exact ih rfl

theorem NibblesPaired.command_text (b : Byte) (text : List Byte) :
    NibblesPaired (commandProgram b ++ text.flatMap writeDataProgram) where
  even := by
    rw [latchCycles_commandProgram_append_text]
    omega
  strobeLow _ L := by
    rw [Lines.after_append, Lines.after_commandProgram]
    exact Lines.after_text_e text rfl

theorem NibblesPaired.command (b : Byte) : NibblesPaired (commandProgram b) := by
  simpa using NibblesPaired.command_text b []

theorem NibblesPaired.writeData (b : Byte) : NibblesPaired (writeDataProgram b) where
  even := by rw [latchCycles_writeDataProgram]
  strobeLow _ L := by
    rw [Lines.after_writeDataProgram]
    rfl

theorem NibblesPaired.print (row col : Byte) (text : List Byte) : NibblesPaired (printProgram row col text) := by
  unfold printProgram
  cases posCmd row col with
  | none => exact .nil
  | some a => exact .command_text a text

theorem NibblesPaired.setPosition (row col : Byte) : NibblesPaired (setPositionProgram row col) :=
  setPositionProgram_eq row col ▸ .print row col []

theorem NibblesPaired.init (bl : Bool) : NibblesPaired (initProgram bl) where
  even := by rw [latchCycles_initProgram]
  strobeLow _ L := by
    rw [initProgram, Lines.after_append, Lines.after_append, initConfigure, Lines.after_append,
      Lines.after_commandProgram]
    cases bl <;> rfl

theorem uprog_nibblesPaired {i : Instr} (hi : isBusOperation i = true) (text : List Byte) :
    NibblesPaired (uprog ⟨i, text⟩) := by
  cases i with
  | init => exact .init Config.hasBacklight
  | command b => exact .command b
  | writeData b => exact .writeData b
  | setPosition row col => exact .setPosition row col
  | print row col _ => exact .print row col text
  | clear => exact .command 0x01
  | _ => exact nomatch hi

/-- Settles O55: every bus operation sends whole bytes, `INIT` after four raw nibbles, and ends on a latch cycle but for
a settle delay or the backlight. -/
theorem nibblesComeInPairs : Obligations.NibblesComeInPairs := by
  intro i text L hi
  have h := uprog_nibblesPaired hi text
  exact ⟨h.even, fun hne => h.strobeLow hne L⟩

end Sys2Proof.Machine

/-! # Encoding (30_encoding.md): the decoders of the three spaces against the encoder, the words no row claims, and the
bus patterns the driver sends -/

namespace Sys2Proof

/-! ## Request words (R91 to R99) -/

/-- R99's list: a code no format has, or a 1 among the bits its format marks zero. -/
def ReservedRequest (w : RequestWord) : Prop :=
  w.extractLsb' 28 4 = 0x0 ∨ 0x8 ≤ w.extractLsb' 28 4 ∨
  (w.extractLsb' 28 4 = 0x1 ∧ w.extractLsb' 0 28 ≠ 0) ∨
  (w.extractLsb' 28 4 = 0x2 ∧ w.extractLsb' 8 20 ≠ 0) ∨
  (w.extractLsb' 28 4 = 0x3 ∧ w.extractLsb' 8 20 ≠ 0) ∨
  (w.extractLsb' 28 4 = 0x4 ∧ (w.extractLsb' 24 4 ≠ 0 ∨ w.extractLsb' 0 8 ≠ 0)) ∨
  (w.extractLsb' 28 4 = 0x5 ∧ w.extractLsb' 24 4 ≠ 0) ∨
  (w.extractLsb' 28 4 = 0x6 ∧ w.extractLsb' 0 28 ≠ 0) ∨
  (w.extractLsb' 28 4 = 0x7 ∧ w.extractLsb' 12 16 ≠ 0)

/-- The formats of R91 to R96 and R99 field by field: the instruction a word `w` has the form of. -/
inductive RequestForm (w : RequestWord) : Instr → Prop
  | init (hopc : w.extractLsb' 28 4 = 0x1) (hpad : w.extractLsb' 0 28 = 0) : RequestForm w .init
  | command (hopc : w.extractLsb' 28 4 = 0x2) (hpad : w.extractLsb' 8 20 = 0) :
      RequestForm w (.command (w.extractLsb' 0 8))
  | writeData (hopc : w.extractLsb' 28 4 = 0x3) (hpad : w.extractLsb' 8 20 = 0) :
      RequestForm w (.writeData (w.extractLsb' 0 8))
  | setPosition (hopc : w.extractLsb' 28 4 = 0x4) (hpad : w.extractLsb' 24 4 = 0) (hlow : w.extractLsb' 0 8 = 0) :
      RequestForm w (.setPosition (w.extractLsb' 16 8) (w.extractLsb' 8 8))
  | print (hopc : w.extractLsb' 28 4 = 0x5) (hpad : w.extractLsb' 24 4 = 0) :
      RequestForm w (.print (w.extractLsb' 16 8) (w.extractLsb' 8 8) (w.extractLsb' 0 8))
  | clear (hopc : w.extractLsb' 28 4 = 0x6) (hpad : w.extractLsb' 0 28 = 0) : RequestForm w .clear
  | convert (hopc : w.extractLsb' 28 4 = 0x7) (hpad : w.extractLsb' 12 16 = 0) :
      RequestForm w (.convert (w.extractLsb' 0 12))
  | illegal (h : ReservedRequest w) : RequestForm w (.illegal w)

/-- Every word has the form of what it decodes to. -/
theorem decodeRequest_form (w : RequestWord) : RequestForm w (decodeRequest w) := by
  simp only [decodeRequest]
  split_ifs with h1 p1 h2 p2 h3 p3 h4 p4 h5 p5 h6 p6 h7 p7
  · exact .init h1 p1
  · exact .illegal (.inr (.inr (.inl ⟨h1, p1⟩)))
  · exact .command h2 p2
  · exact .illegal (.inr (.inr (.inr (.inl ⟨h2, p2⟩))))
  · exact .writeData h3 p3
  · exact .illegal (.inr (.inr (.inr (.inr (.inl ⟨h3, p3⟩)))))
  · exact .setPosition h4 p4.1 p4.2
  · exact .illegal (.inr (.inr (.inr (.inr (.inr (.inl ⟨h4, not_and_or.1 p4⟩))))))
  · exact .print h5 p5
  · exact .illegal (.inr (.inr (.inr (.inr (.inr (.inr (.inl ⟨h5, p5⟩)))))))
  · exact .clear h6 p6
  · exact .illegal (.inr (.inr (.inr (.inr (.inr (.inr (.inr (.inl ⟨h6, p6⟩))))))))
  · exact .convert h7 p7
  · exact .illegal (.inr (.inr (.inr (.inr (.inr (.inr (.inr (.inr ⟨h7, p7⟩))))))))
  · have hopc : ∀ opc : BitVec 4, opc ≠ 1 → opc ≠ 2 → opc ≠ 3 → opc ≠ 4 → opc ≠ 5 → opc ≠ 6 → opc ≠ 7 →
        opc = 0 ∨ 8 ≤ opc := by decide
    exact .illegal ((hopc _ h1 h2 h3 h4 h5 h6 h7).imp_right .inl)

/-- The formats and R99's list do not overlap. -/
theorem RequestForm.eq_illegal_of_reserved {w : RequestWord} {i : Instr} (h : RequestForm w i)
    (hw : ReservedRequest w) : i = .illegal w := by
  cases h with
  | init hopc hpad => simp [ReservedRequest, hopc, hpad] at hw
  | command hopc hpad => simp [ReservedRequest, hopc, hpad] at hw
  | writeData hopc hpad => simp [ReservedRequest, hopc, hpad] at hw
  | setPosition hopc hpad hlow => simp [ReservedRequest, hopc, hpad, hlow] at hw
  | print hopc hpad => simp [ReservedRequest, hopc, hpad] at hw
  | clear hopc hpad => simp [ReservedRequest, hopc, hpad] at hw
  | convert hopc hpad => simp [ReservedRequest, hopc, hpad] at hw
  | illegal _ => rfl

/-- Two neighbouring fields are the field that spans them. -/
theorem extractLsb'_eq_append {v n m k : Nat} {w : BitVec v} {x : BitVec n} {y : BitVec m}
    (hx : w.extractLsb' (k + m) n = x) (hy : w.extractLsb' k m = y) : w.extractLsb' k (n + m) = x ++ y := by
  rw [← hx, ← hy]
  exact (BitVec.extractLsb'_append_extractLsb'_eq_extractLsb' rfl).symm

/-- A request word is its four bytes. -/
theorem requestWord_eq_bytes (w : RequestWord) :
    w = ((w.extractLsb' 24 8 ++ w.extractLsb' 16 8 : BitVec 16) ++ w.extractLsb' 8 8 : BitVec 24) ++
      w.extractLsb' 0 8 := by
  have high : w.extractLsb' 16 16 = (w.extractLsb' 24 8 ++ w.extractLsb' 16 8 : BitVec 16) :=
    extractLsb'_eq_append (n := 8) (m := 8) rfl rfl
  have upper : w.extractLsb' 8 24 = (w.extractLsb' 16 16 ++ w.extractLsb' 8 8 : BitVec 24) :=
    extractLsb'_eq_append (n := 16) (m := 8) rfl rfl
  rw [← high, ← upper]
  exact (BitVec.extractLsb'_append_extractLsb' (w := 24) (len := 8)).symm

/-- The encoder puts back every field of a word, so no bit of it is dropped. -/
theorem RequestForm.encode_eq {w : RequestWord} {i : Instr} (h : RequestForm w i) : encode i = .request w := by
  have whole : w.extractLsb' 0 32 = w := BitVec.extractLsb'_eq_self
  cases h with
  | init hopc hpad => exact congrArg Code.request ((extractLsb'_eq_append hopc hpad).symm.trans whole)
  | clear hopc hpad => exact congrArg Code.request ((extractLsb'_eq_append hopc hpad).symm.trans whole)
  | command hopc hpad =>
    have head : w.extractLsb' 8 24 = 0x200000 := extractLsb'_eq_append hopc hpad
    exact congrArg Code.request ((extractLsb'_eq_append head rfl).symm.trans whole)
  | writeData hopc hpad =>
    have head : w.extractLsb' 8 24 = 0x300000 := extractLsb'_eq_append hopc hpad
    exact congrArg Code.request ((extractLsb'_eq_append head rfl).symm.trans whole)
  | convert hopc hpad =>
    have head : w.extractLsb' 12 20 = 0x70000 := extractLsb'_eq_append hopc hpad
    exact congrArg Code.request ((extractLsb'_eq_append head rfl).symm.trans whole)
  | setPosition hopc hpad hlow =>
    have head : w.extractLsb' 24 8 = 0x40 := extractLsb'_eq_append hopc hpad
    have bytes := requestWord_eq_bytes w
    rw [head, hlow] at bytes
    exact congrArg Code.request bytes.symm
  | print hopc hpad =>
    have head : w.extractLsb' 24 8 = 0x50 := extractLsb'_eq_append hopc hpad
    have bytes := requestWord_eq_bytes w
    rw [head] at bytes
    exact congrArg Code.request bytes.symm
  | illegal _ => rfl

/-- Settles O2: the encoder puts back every field of the word's form. -/
theorem encodeOfDecodedRequestIsTheWord : Obligations.EncodeOfDecodedRequestIsTheWord := by
  have back : ∀ w : RequestWord, encode (decodeRequest w) = .request w := fun w => (decodeRequest_form w).encode_eq
  refine ⟨back, fun w w' h => Code.request.inj ?_⟩
  rw [← back w, ← back w', h]

/-- A word is illegal exactly when it is on R99's list. -/
theorem decodeRequest_eq_illegal_iff {w : RequestWord} : decodeRequest w = .illegal w ↔ ReservedRequest w := by
  refine ⟨fun h => ?_, (decodeRequest_form w).eq_illegal_of_reserved⟩
  have form := decodeRequest_form w
  rw [h] at form
  cases form with
  | illegal hw => exact hw

/-- Settles O3: the formats and R99's list share out the words between them. -/
theorem illegalWordsFault : Obligations.IllegalWordsFault := by
  refine ⟨fun _ => decodeRequest_eq_illegal_iff, fun w s hb => ?_⟩
  rw [Machine.exec, Machine.execIllegal, hb]
  rfl

/-! ### Decoding what the encoder writes -/

/-- A word matches the row of its form (R91 to R96, R99). -/
theorem RequestForm.inRow {w : RequestWord} {i : Instr} (form : RequestForm w i) (hi : i.wellFormed = true) :
    Laws.inRow i (.request w) := by
  rw [← form.encode_eq]
  cases form with
  | init => exact Laws.EncodesInRow.init hi
  | command => exact Laws.EncodesInRow.command _ hi
  | writeData => exact Laws.EncodesInRow.writeData _ hi
  | setPosition => exact Laws.EncodesInRow.setPosition _ _ hi
  | print => exact Laws.EncodesInRow.print _ _ _ hi
  | clear => exact Laws.EncodesInRow.clear hi
  | convert => exact Laws.EncodesInRow.convert _ hi
  | illegal => exact Laws.EncodesInRow.illegal _ hi

/-- A word that matches no row has no form but the illegal one. -/
theorem RequestForm.eq_illegal_of_requestIllegal {w : RequestWord} {i : Instr} (form : RequestForm w i)
    (hw : requestIllegal w = true) : i = .illegal w := by
  have noRow : ∀ r ∈ requestRows, w &&& r.1 ≠ r.2 := by simpa [requestIllegal] using hw
  have row := form.inRow
  cases form with
  | init => exact absurd (row rfl) (noRow (0xFFFFFFFF, 0x10000000) (by decide))
  | command => exact absurd (row rfl) (noRow (0xFFFFFF00, 0x20000000) (by decide))
  | writeData => exact absurd (row rfl) (noRow (0xFFFFFF00, 0x30000000) (by decide))
  | setPosition => exact absurd (row rfl) (noRow (0xFF0000FF, 0x40000000) (by decide))
  | print => exact absurd (row rfl) (noRow (0xFF000000, 0x50000000) (by decide))
  | clear => exact absurd (row rfl) (noRow (0xFFFFFFFF, 0x60000000) (by decide))
  | convert => exact absurd (row rfl) (noRow (0xFFFFF000, 0x70000000) (by decide))
  | illegal => rfl

/-- The fields of a word written as 24 bits and a byte. -/
theorem fields_of_head_byte (x : BitVec 24) (b : Byte) {w : RequestWord} (hw : w = x ++ b) :
    w.extractLsb' 28 4 = x.extractLsb' 20 4 ∧ w.extractLsb' 8 20 = x.extractLsb' 0 20 ∧ w.extractLsb' 0 8 = b := by
  subst hw
  exact ⟨BitVec.extractLsb'_append_eq_of_le (by decide), BitVec.extractLsb'_append_eq_of_le (by decide),
    BitVec.extractLsb'_append_eq_right⟩

/-- The fields of a word written as 20 bits and a sample code. -/
theorem fields_of_head_code (x : BitVec 20) (code : SampleCode) {w : RequestWord} (hw : w = x ++ code) :
    w.extractLsb' 28 4 = x.extractLsb' 16 4 ∧ w.extractLsb' 12 16 = x.extractLsb' 0 16 ∧
      w.extractLsb' 0 12 = code := by
  subst hw
  exact ⟨BitVec.extractLsb'_append_eq_of_le (by decide), BitVec.extractLsb'_append_eq_of_le (by decide),
    BitVec.extractLsb'_append_eq_right⟩

/-- The fields of a word written as four bytes. -/
theorem fields_of_bytes (a r c l : Byte) {w : RequestWord}
    (hw : w = ((a ++ r : BitVec 16) ++ c : BitVec 24) ++ l) :
    w.extractLsb' 28 4 = a.extractLsb' 4 4 ∧ w.extractLsb' 24 4 = a.extractLsb' 0 4 ∧ w.extractLsb' 16 8 = r ∧
      w.extractLsb' 8 8 = c ∧ w.extractLsb' 0 8 = l := by
  have below : ∀ {s len : Nat}, 8 ≤ s →
      w.extractLsb' s len = ((a ++ r : BitVec 16) ++ c : BitVec 24).extractLsb' (s - 8) len := fun h =>
    hw ▸ BitVec.extractLsb'_append_eq_of_le h
  have belowTwo : ∀ {s len : Nat}, 16 ≤ s → w.extractLsb' s len = (a ++ r : BitVec 16).extractLsb' (s - 8 - 8) len :=
    fun h => (below (by omega)).trans (BitVec.extractLsb'_append_eq_of_le (by omega))
  refine ⟨?_, ?_, ?_, ?_, ?_⟩
  · exact (belowTwo (by decide)).trans (BitVec.extractLsb'_append_eq_of_le (by decide))
  · exact (belowTwo (by decide)).trans (BitVec.extractLsb'_append_eq_of_le (by decide))
  · exact (belowTwo (by decide)).trans BitVec.extractLsb'_append_eq_right
  · exact (below (by decide)).trans BitVec.extractLsb'_append_eq_right
  · exact hw ▸ BitVec.extractLsb'_append_eq_right

theorem decodeRequest_command (b : Byte) : decodeRequest ((0x200000#24 : BitVec 24) ++ b) = .command b := by
  obtain ⟨hopc, hpad, hb⟩ := fields_of_head_byte 0x200000#24 b rfl
  simp [decodeRequest, hopc, hpad, hb]

theorem decodeRequest_writeData (b : Byte) : decodeRequest ((0x300000#24 : BitVec 24) ++ b) = .writeData b := by
  obtain ⟨hopc, hpad, hb⟩ := fields_of_head_byte 0x300000#24 b rfl
  simp [decodeRequest, hopc, hpad, hb]

theorem decodeRequest_setPosition (row col : Byte) :
    decodeRequest (((0x40#8 ++ row : BitVec 16) ++ col : BitVec 24) ++ 0#8) = .setPosition row col := by
  obtain ⟨hopc, hpad, hrow, hcol, hlow⟩ := fields_of_bytes 0x40#8 row col 0#8 rfl
  simp [decodeRequest, hopc, hpad, hrow, hcol, hlow]

theorem decodeRequest_print (row col len : Byte) :
    decodeRequest (((0x50#8 ++ row : BitVec 16) ++ col : BitVec 24) ++ len) = .print row col len := by
  obtain ⟨hopc, hpad, hrow, hcol, hlen⟩ := fields_of_bytes 0x50#8 row col len rfl
  simp [decodeRequest, hopc, hpad, hrow, hcol, hlen]

theorem decodeRequest_convert (code : SampleCode) :
    decodeRequest ((0x70000#20 : BitVec 20) ++ code) = .convert code := by
  obtain ⟨hopc, hpad, hcode⟩ := fields_of_head_code 0x70000#20 code rfl
  simp [decodeRequest, hopc, hpad, hcode]

/-! ## Micro-operation words (R100 to R103, R111) -/

theorem lineOfId_id (l : Line) : lineOfId l.id = some l := by
  cases l <;> rfl

theorem lineOfId_eq_none_iff (id : BitVec 3) : lineOfId id = none ↔ id = 7 := by
  revert id
  decide

theorem lineOfId_eq_bl_iff (id : BitVec 3) : lineOfId id = some .bl ↔ id = 6 := by
  revert id
  decide

/-- Only the backlight line may be missing (R35). -/
theorem setWellFormed_eq_false_iff (l : Line) (v : Level) :
    (MicroOp.set l v).wellFormed = false ↔ l = .bl ∧ Config.hasBacklight = false := by
  cases l <;> simp [MicroOp.wellFormed]

/-- With bit 7 set, a word is a delay (R102). -/
theorem decodeMicroOp_of_delay {w : Byte} (hkind : w.getLsbD 7 = true) :
    decodeMicroOp w = if w.extractLsb' 0 7 = 0 then none else some (.delay (w.extractLsb' 0 7)) :=
  if_pos hkind

/-- A `SET` with a pad bit set is reserved (R101, R103). -/
theorem decodeMicroOp_of_pad {w : Byte} (hkind : w.getLsbD 7 = false) (hpad : w.extractLsb' 1 3 ≠ 0) :
    decodeMicroOp w = none := by
  rw [decodeMicroOp, hkind, if_neg hpad]
  rfl

/-- With its pad bits zero, a `SET` is one when its line id is a line's and that line is there (R101, R103). -/
theorem decodeMicroOp_of_line {w : Byte} (hkind : w.getLsbD 7 = false) (hpad : w.extractLsb' 1 3 = 0) :
    decodeMicroOp w = (lineOfId (w.extractLsb' 4 3)).bind fun l =>
      if (MicroOp.set l (levelOfBit (w.getLsbD 0))).wellFormed then some (.set l (levelOfBit (w.getLsbD 0)))
      else none := by
  rw [decodeMicroOp, hkind, if_pos hpad]
  rfl

/-- A micro-operation comes back from its word. -/
theorem decodeMicroOp_word {u : MicroOp} (hu : u.wellFormed = true) : decodeMicroOp u.word = some u := by
  cases u with
  | set l v =>
    have hkind : (MicroOp.set l v).word.getLsbD 7 = false := by cases l <;> cases v <;> rfl
    have hpad : (MicroOp.set l v).word.extractLsb' 1 3 = 0 := by cases l <;> cases v <;> rfl
    have hline : (MicroOp.set l v).word.extractLsb' 4 3 = l.id := by cases l <;> cases v <;> rfl
    have hlevel : levelOfBit ((MicroOp.set l v).word.getLsbD 0) = v := by cases l <;> cases v <;> rfl
    rw [decodeMicroOp_of_line hkind hpad, hline, lineOfId_id, Option.bind_some, hlevel, if_pos hu]
  | delay ms =>
    have hkind : (MicroOp.delay ms).word.getLsbD 7 = true := by
      rw [MicroOp.word, BitVec.getLsbD_append]
      rfl
    have hms : (MicroOp.delay ms).word.extractLsb' 0 7 = ms := BitVec.extractLsb'_append_eq_right
    have hne : ms ≠ 0 := by simpa [MicroOp.wellFormed] using hu
    rw [decodeMicroOp_of_delay hkind, hms, if_neg hne]

/-- The words R103 reserves. -/
theorem decodeMicroOp_eq_none_iff (w : Byte) : decodeMicroOp w = none ↔
    (w.getLsbD 7 = true ∧ w.extractLsb' 0 7 = 0) ∨
    (w.getLsbD 7 = false ∧ (w.extractLsb' 1 3 ≠ 0 ∨ w.extractLsb' 4 3 = 7 ∨
      (w.extractLsb' 4 3 = 6 ∧ Config.hasBacklight = false))) := by
  cases hkind : w.getLsbD 7 with
  | true => simp [decodeMicroOp_of_delay hkind]
  | false =>
    by_cases hpad : w.extractLsb' 1 3 = 0
    · rw [decodeMicroOp_of_line hkind hpad, ← lineOfId_eq_none_iff, ← lineOfId_eq_bl_iff]
      cases lineOfId (w.extractLsb' 4 3) with
      | none => simp
      | some l => simp [hpad, setWellFormed_eq_false_iff]
    · simp only [decodeMicroOp_of_pad hkind hpad, hpad, ne_eq, not_false_eq_true, true_or, and_true, or_true]

theorem decodeMicroWords_word {u : MicroOp} (hu : u.wellFormed = true) : decodeMicroWords [u.word] = some u.toInstr :=
  congrArg (Option.map MicroOp.toInstr) (decodeMicroOp_word hu)

theorem decodeLatchWords_latchWords (n : Nibble) : decodeLatchWords (latchWords n) = some n := by
  revert n
  decide

/-- A byte is its two nibbles, the high one first (R68). -/
theorem nibbles_append (b : Byte) : hiNibble b ++ loNibble b = b := BitVec.extractLsb'_append_extractLsb'

theorem decodeMicroWords_sendByte (b : Byte) :
    decodeMicroWords (latchWords (hiNibble b) ++ latchWords (loNibble b)) = some (.sendByte b) := by
  have hlen : (latchWords (hiNibble b) ++ latchWords (loNibble b)).length = 16 := rfl
  have hhi : (latchWords (hiNibble b) ++ latchWords (loNibble b)).take 8 = latchWords (hiNibble b) := rfl
  have hlo : (latchWords (hiNibble b) ++ latchWords (loNibble b)).drop 8 = latchWords (loNibble b) := rfl
  simp only [decodeMicroWords, hlen, hhi, hlo, decodeLatchWords_latchWords, nibbles_append]
  rfl

/-! ## Every space -/

/-- Settles O1: each row's decoder undoes the encoder, an illegal word being one that matches no row. -/
theorem decodeEncodeRoundTrip : Obligations.DecodeEncodeRoundTrip := by
  intro i hi
  cases i with
  | init => rfl
  | command b => exact congrArg some (decodeRequest_command b)
  | writeData b => exact congrArg some (decodeRequest_writeData b)
  | setPosition row col => exact congrArg some (decodeRequest_setPosition row col)
  | print row col len => exact congrArg some (decodeRequest_print row col len)
  | clear => rfl
  | convert code => exact congrArg some (decodeRequest_convert code)
  | illegal w => exact congrArg some ((decodeRequest_form w).eq_illegal_of_requestIllegal hi)
  | set l v => exact decodeMicroWords_word (u := .set l v) hi
  | delay ms => exact decodeMicroWords_word (u := .delay ms) hi
  | latch n => exact congrArg (Option.map Instr.latch) (decodeLatchWords_latchWords n)
  | sendByte b => exact decodeMicroWords_sendByte b
  | nibWake => rfl
  | nib4Bit => rfl
  | cmdFunctionSet => rfl
  | cmdDisplayCtrl => rfl
  | cmdClear => rfl
  | cmdEntryMode => rfl
  | cmdAddrRow0 c => revert c; decide
  | cmdAddrRow1 c => revert c; decide
  | dataByte d => rfl

/-- Settles O4: the decoders are run on the words. -/
theorem specWordsDecode : Obligations.SpecWordsDecode := by
  unfold Obligations.SpecWordsDecode
  decide

end Sys2Proof

namespace Sys2Proof.Machine

/-! ## Executing a reserved micro-operation (R103) -/

/-- Settles O5: what the decoder refuses, and what the two reserved instructions do. -/
theorem reservedMicroOpsRefused : Obligations.ReservedMicroOpsRefused :=
  ⟨decodeMicroOp_eq_none_iff, fun _ => rfl, fun _ _ => rfl⟩

/-! ## Bus patterns (R104 to R106): what the driver sends to produce them -/

/-- Micro-operations run to completion leave no delay pending, whatever was pending before: the return from the first
delay among them clears it. -/
theorem runMicroOps_pending {us : List MicroOp} {s t : State} (hs : s.timer.stalls = false)
    (hd : s.pending = none ∨ ∃ ms, .delay ms ∈ us) (h : runMicroOps us s = .next t) : t.pending = none := by
  induction us generalizing s with
  | nil =>
    cases h
    simpa using hd
  | cons u us ih =>
    cases u with
    | set l v =>
      obtain ⟨r, hr, h⟩ := andThen_eq_next h
      obtain rfl := performSet_eq_next hr
      exact ih (s := s.emitSet l v) hs (by simpa using hd) h
    | delay ms =>
      obtain ⟨r, hr, h⟩ := andThen_eq_next h
      obtain rfl := performDelay_eq_next hr
      obtain ⟨r, hret⟩ := State.awaitDelay_isSome (s := s.emitDelay ms) hs (ms.setWidth 16)
      obtain ⟨late, tm, -, htm, rfl⟩ := State.awaitDelay_eq_some hret
      simp only [hret] at h
      exact ih (s := (s.emitDelay ms).delayReturned (ms.setWidth 16) late tm) (htm.trans hs) (.inl rfl) h

/-- A micro-program with a delay in it runs to completion with exactly its own effects. -/
theorem runMicroOps_ran {us : List MicroOp} (hus : ∀ u ∈ us, u.wellFormed = true) {ms : BitVec 7}
    (hd : .delay ms ∈ us) {s : State} (hs : s.timer.stalls = false) :
    ∃ t, runMicroOps us s = .next t ∧ Ran s t us (s.lines.after us) (requestedMs us) := by
  obtain ⟨t, hrun, hp⟩ := runMicroOps_performs hus hs
  have hpend := runMicroOps_pending hs (.inr ⟨ms, hd⟩) hrun
  exact ⟨t, hrun, hpend ▸ hp.eq, hp.time⟩

theorem latchProgram_ran (n : Nibble) {s : State} (hs : s.timer.stalls = false) :
    ∃ t, runMicroOps (latchProgram n) s = .next t ∧ Ran s t (latchEvents n) (nibbleLines s.lines n) 2 := by
  rw [← Lines.after_latchProgram]
  exact runMicroOps_ran (latchProgram_wellFormed n) (ms := 1) (by simp [latchProgram]) hs

theorem requestedMs_commandProgram (b : Byte) : requestedMs (commandProgram b) = commandMs b := by
  unfold commandProgram commandMs
  split <;> rfl

theorem commandProgram_ran (b : Byte) {s : State} (hs : s.timer.stalls = false) :
    ∃ t, runMicroOps (commandProgram b) s = .next t ∧
      Ran s t (commandEvents b) (byteLines s.lines .l b) (commandMs b) := by
  rw [← Lines.after_commandProgram, ← requestedMs_commandProgram]
  exact runMicroOps_ran (commandProgram_wellFormed b) (ms := 1)
    (by simp [commandProgram, sendByteProgram, latchProgram]) hs

theorem writeDataProgram_ran (b : Byte) {s : State} (hs : s.timer.stalls = false) :
    ∃ t, runMicroOps (writeDataProgram b) s = .next t ∧
      Ran s t (byteEvents .h b) (byteLines s.lines .h b) 4 := by
  rw [← Lines.after_writeDataProgram]
  exact runMicroOps_ran (writeDataProgram_wellFormed b) (ms := 1)
    (by simp [writeDataProgram, sendByteProgram, latchProgram]) hs

/-- Settles O33: each raw nibble is one latch cycle. -/
theorem rawNibblePatternsAreLatched : Obligations.RawNibblePatternsAreLatched := by
  intro s hs
  simp only [exec, execNibWake, execNib4Bit]
  exact ⟨latchProgram_ran 0x3 hs, latchProgram_ran 0x2 hs⟩

/-- A command byte with no settle delay takes two latch cycles (R183). -/
theorem commandProgram_ran_of_ne {b : Byte} (hb : b ≠ 0x01) {s : State} (hs : s.timer.stalls = false) :
    ∃ t, runMicroOps (commandProgram b) s = .next t ∧ Ran s t (commandEvents b) (byteLines s.lines .l b) 4 := by
  have hms : commandMs b = 4 := if_neg hb
  exact hms ▸ commandProgram_ran b hs

/-- Settles O34: each is the micro-program of `COMMAND`, and only `0x01` settles. -/
theorem configurationPatternsAreSent : Obligations.ConfigurationPatternsAreSent := by
  intro s hs
  simp only [exec, execCmdFunctionSet, execCmdDisplayCtrl, execCmdClear, execCmdEntryMode]
  exact ⟨commandProgram_ran_of_ne (by decide) hs, commandProgram_ran_of_ne (by decide) hs, commandProgram_ran 0x01 hs,
    commandProgram_ran_of_ne (by decide) hs⟩

/-- Settles O35: the sums do not carry, and no set-address byte is `0x01`. -/
theorem addressAndDataPatternsAreSent : Obligations.AddressAndDataPatternsAreSent := by
  intro s hs
  simp only [exec, execCmdAddrRow0, execCmdAddrRow1, execDataByte]
  refine ⟨fun c a ha => ?_, fun c a ha => ?_, fun d => writeDataProgram_ran d hs⟩
  · have hbyte : 0x80 + c.setWidth 8 = a := by bv_omega
    have hne : a ≠ 0x01 := by bv_omega
    rw [hbyte]
    exact commandProgram_ran_of_ne hne hs
  · have hbyte : 0xC0 + c.setWidth 8 = a := by bv_omega
    have hne : a ≠ 0x01 := by bv_omega
    rw [hbyte]
    exact commandProgram_ran_of_ne hne hs

end Sys2Proof.Machine

/-! # The bus primitives (40_bus_primitives.md): the micro-routines run to completion, one micro-operation of the
sequencer, `SET` and `DELAY`, what every micro-program keeps around a strobe and around a write of `RS`, and what the
bus observer reads back -/

namespace Sys2Proof.Machine

/-! ## The micro-routines run to completion (R134, R136) -/

theorem exec_latch (n : Nibble) (s : State) : exec (.latch n) s = runMicroOps (latchProgram n) s := rfl

theorem exec_sendByte (b : Byte) (s : State) : exec (.sendByte b) s = runMicroOps (sendByteProgram b) s := rfl

/-- Settles O31: `LATCH` runs its latch cycle. -/
theorem latchPresentsTheNibble : Obligations.LatchPresentsTheNibble := by
  intro n s hs
  rw [exec_latch]
  exact latchProgram_ran n hs

theorem andThen_assoc (r : Result) (f g : State → Result) :
    andThen (andThen r f) g = andThen r fun s => andThen (f s) g := by
  cases r <;> rfl

theorem andThen_next_right (r : Result) : andThen r .next = r := by
  cases r <;> rfl

/-- What comes after `r` matters only in the state `r` answers. -/
theorem andThen_congr {r : Result} {f g : State → Result} (h : ∀ s, r = .next s → f s = g s) :
    andThen r f = andThen r g := by
  cases r with
  | next s => exact h s rfl
  | fault x => rfl
  | refused x => rfl

/-- With a collaborator that returns, one micro-program runs after another. -/
theorem runMicroOps_append {us vs : List MicroOp} {s : State} (hs : s.timer.stalls = false) :
    runMicroOps (us ++ vs) s = andThen (runMicroOps us s) (runMicroOps vs) := by
  induction us generalizing s with
  | nil => rfl
  | cons u us ih =>
    cases u with
    | set l v =>
      rw [List.cons_append, runMicroOps, runMicroOps, andThen_assoc]
      refine andThen_congr fun r hr => ?_
      obtain rfl := performSet_eq_next hr
      exact ih hs
    | delay ms =>
      rw [List.cons_append, runMicroOps, runMicroOps, andThen_assoc]
      refine andThen_congr fun r hr => ?_
      obtain rfl := performDelay_eq_next hr
      obtain ⟨r, hret⟩ := State.awaitDelay_isSome (s := s.emitDelay ms) hs (ms.setWidth 16)
      obtain ⟨late, tm, -, htm, rfl⟩ := State.awaitDelay_eq_some hret
      simp only [hret]
      exact ih (htm.trans hs)

theorem sendByteProgram_ran (b : Byte) {s : State} (hs : s.timer.stalls = false) :
    ∃ t, runMicroOps (sendByteProgram b) s = .next t ∧
      Ran s t (latchEvents (hiNibble b) ++ latchEvents (loNibble b)) (nibbleLines s.lines (loNibble b)) 4 := by
  rw [← Lines.after_sendByteProgram]
  exact runMicroOps_ran (sendByteProgram_wellFormed b) (ms := 1) (by simp [sendByteProgram, latchProgram]) hs

/-- Settles O32: `SENDBYTE` runs two latch cycles, and the second starts where the first has ended. -/
theorem sendByteIsTwoLatches : Obligations.SendByteIsTwoLatches := by
  refine ⟨fun b s hs => ?_, fun b => ⟨rfl, nibbles_append b⟩⟩
  obtain ⟨u, hu, -⟩ := latchProgram_ran (hiNibble b) hs
  obtain ⟨t, ht, hran⟩ := sendByteProgram_ran b hs
  have hlow : runMicroOps (latchProgram (loNibble b)) u = .next t := by
    rwa [sendByteProgram, runMicroOps_append hs, hu, andThen_next] at ht
  simp only [exec_latch, exec_sendByte]
  exact ⟨u, t, hu, hlow, ht, hran⟩

/-! ## What follows a micro-operation in its micro-program -/

/-- Every micro-operation of the list stands in the relation `R` to the list of those after it. -/
def EachBefore (R : MicroOp → List MicroOp → Prop) : List MicroOp → Prop
  | [] => True
  | u :: us => R u us ∧ EachBefore R us

/-- The relation speaks of a stretch right after the micro-operation: what comes later does not undo it. -/
def Extends (R : MicroOp → List MicroOp → Prop) : Prop := ∀ u us vs, R u us → R u (us ++ vs)

theorem EachBefore.append {R : MicroOp → List MicroOp → Prop} (hR : Extends R) {us vs : List MicroOp}
    (hus : EachBefore R us) (hvs : EachBefore R vs) : EachBefore R (us ++ vs) := by
  induction us with
  | nil => exact hvs
  | cons u us ih =>
    obtain ⟨hu, hus⟩ := hus
    exact ⟨hR u us vs hu, ih hus⟩

theorem EachBefore.flatMap {R : MicroOp → List MicroOp → Prop} (hR : Extends R) {f : Byte → List MicroOp}
    (hf : ∀ b, EachBefore R (f b)) (text : List Byte) : EachBefore R (text.flatMap f) := by
  induction text with
  | nil => trivial
  | cons b text ih => exact (hf b).append hR ih

theorem EachBefore.of_forall {R : MicroOp → List MicroOp → Prop} {us : List MicroOp}
    (h : ∀ u ∈ us, ∀ vs, R u vs) : EachBefore R us := by
  induction us with
  | nil => trivial
  | cons u us ih => exact ⟨h u (by simp) us, ih fun v hv => h v (by simp [hv])⟩

theorem EachBefore.of_getElem? {R : MicroOp → List MicroOp → Prop} {us : List MicroOp} (h : EachBefore R us)
    {k : Nat} {u : MicroOp} (hu : us[k]? = some u) : R u (us.drop (k + 1)) := by
  induction us generalizing k with
  | nil => simp at hu
  | cons v us ih =>
    cases k with
    | zero =>
      obtain rfl : v = u := by simpa using hu
      exact h.1
    | succ k => exact ih h.2 (by simpa using hu)

/-- Every bus operation's micro-program is put together from `INIT`'s forcing part, commands, data bytes and the `SET`
of the backlight line, so what holds of these holds of it. -/
theorem uprog_eachBefore {R : MicroOp → List MicroOp → Prop} (hR : Extends R) (hforcing : EachBefore R initForcing)
    (hcommand : ∀ b, EachBefore R (commandProgram b)) (hdata : ∀ b, EachBefore R (writeDataProgram b))
    (hbacklight : EachBefore R [.set .bl blOnLevel]) {i : Instr} (hi : isBusOperation i = true) (text : List Byte) :
    EachBefore R (uprog ⟨i, text⟩) := by
  have hprint : ∀ row col text, EachBefore R (printProgram row col text) := fun row col text => by
    unfold printProgram
    cases posCmd row col with
    | none => trivial
    | some a => exact (hcommand a).append hR (.flatMap hR hdata text)
  have hposition : ∀ row col, EachBefore R (setPositionProgram row col) := fun row col =>
    setPositionProgram_eq row col ▸ hprint row col []
  cases i with
  | init =>
    have hconfigure : EachBefore R initConfigure :=
      (((hcommand 0x28).append hR (hcommand 0x0C)).append hR (hcommand 0x01)).append hR (hcommand 0x06)
    refine (hforcing.append hR hconfigure).append hR ?_
    split
    · exact hbacklight
    · trivial
  | command b => exact hcommand b
  | writeData b => exact hdata b
  | setPosition row col => exact hposition row col
  | print row col _ => exact hprint row col text
  | clear => exact hcommand 0x01
  | _ => exact nomatch hi

/-! ## The strobe (R135, R310) -/

/-- A rising strobe is followed by its hold, the falling strobe and the low hold. -/
def StrobeHeld (u : MicroOp) (us : List MicroOp) : Prop :=
  u = .set .e .h → [.delay 1, .set .e .l, .delay 1] <+: us

theorem strobeHeld_extends : Extends StrobeHeld :=
  fun _ us vs h hu => (h hu).trans (List.prefix_append us vs)

theorem latchProgram_strobeHeld (n : Nibble) : EachBefore StrobeHeld (latchProgram n) := by
  simp [latchProgram, EachBefore, StrobeHeld]

/-- The strobe does not rise outside a latch cycle. -/
theorem EachBefore.strobeHeld_of_no_rise {us : List MicroOp} (h : .set .e .h ∉ us) : EachBefore StrobeHeld us :=
  .of_forall fun _ hu _ hrise => absurd (hrise ▸ hu) h

theorem sendByteProgram_strobeHeld (b : Byte) : EachBefore StrobeHeld (sendByteProgram b) :=
  (latchProgram_strobeHeld _).append strobeHeld_extends (latchProgram_strobeHeld _)

theorem writeDataProgram_strobeHeld (b : Byte) : EachBefore StrobeHeld (writeDataProgram b) :=
  ⟨nofun, sendByteProgram_strobeHeld b⟩

theorem commandProgram_strobeHeld (b : Byte) : EachBefore StrobeHeld (commandProgram b) := by
  have hsettle : EachBefore StrobeHeld (if b = 0x01 then [.delay 2] else []) :=
    .strobeHeld_of_no_rise (by split <;> simp)
  exact .append strobeHeld_extends (us := .set .rs .l :: sendByteProgram b) ⟨nofun, sendByteProgram_strobeHeld b⟩
    hsettle

theorem initForcing_strobeHeld : EachBefore StrobeHeld initForcing := by
  simp [initForcing, latchProgram, EachBefore, StrobeHeld]

/-- Settles O53: the strobe rises only inside a latch cycle, which holds it. -/
theorem everyStrobeIsHeld : Obligations.EveryStrobeIsHeld := by
  intro i text k hi hrise
  have hheld := uprog_eachBefore strobeHeld_extends initForcing_strobeHeld commandProgram_strobeHeld
    writeDataProgram_strobeHeld (.strobeHeld_of_no_rise (by simp)) hi text
  obtain ⟨rest, hrest⟩ := hheld.of_getElem? hrise rfl
  have hnext : ∀ j, ((uprog ⟨i, text⟩).drop (k + 1))[j]? = (uprog ⟨i, text⟩)[k + 1 + j]? := fun j =>
    List.getElem?_drop
  rw [← hrest] at hnext
  exact ⟨(hnext 0).symm, (hnext 1).symm, (hnext 2).symm⟩

/-! ## The mode-select line (R137, R105) -/

/-- A write of `RS` is followed by sixteen micro-operations that do not write it. -/
def RsHeld (u : MicroOp) (us : List MicroOp) : Prop :=
  ∀ v, u = .set .rs v → 16 ≤ us.length ∧ ∀ w, .set .rs w ∉ us.take 16

theorem rsHeld_extends : Extends RsHeld := by
  intro u us vs h v hu
  obtain ⟨hlen, hfree⟩ := h v hu
  refine ⟨hlen.trans (by simp), ?_⟩
  rwa [List.take_append_of_le_length hlen]

/-- Where `RS` is not written there is nothing to hold. -/
theorem EachBefore.rsHeld_of_no_write {us : List MicroOp} (h : ∀ w, .set .rs w ∉ us) : EachBefore RsHeld us :=
  .of_forall fun _ hu _ w hw => absurd (hw ▸ hu) (h w)

theorem rs_not_mem_sendByteProgram (b : Byte) (w : Level) : .set .rs w ∉ sendByteProgram b := by
  simp [sendByteProgram, latchProgram]

/-- Setting `RS` before a byte: the byte is sixteen micro-operations and does not touch it. -/
theorem rs_sendByteProgram_rsHeld (v : Level) (b : Byte) : EachBefore RsHeld (.set .rs v :: sendByteProgram b) :=
  ⟨fun _ _ => ⟨le_rfl, rs_not_mem_sendByteProgram b⟩, .rsHeld_of_no_write (rs_not_mem_sendByteProgram b)⟩

theorem commandProgram_rsHeld (b : Byte) : EachBefore RsHeld (commandProgram b) :=
  (rs_sendByteProgram_rsHeld .l b).append rsHeld_extends (.rsHeld_of_no_write fun w => by split <;> simp)

/-- `INIT` writes `RS` first and not again before its commands. -/
theorem initForcing_rsHeld : EachBefore RsHeld initForcing := by
  have hfree : ∀ w, .set .rs w ∉ initForcing.tail := by simp [initForcing, latchProgram]
  exact ⟨fun _ _ => ⟨by decide, fun w hw => hfree w (List.mem_of_mem_take hw)⟩, .rsHeld_of_no_write hfree⟩

/-- Settles O54: `RS` is written only right before a byte, or at the start of `INIT`. -/
theorem rsIsStableThroughAByte : Obligations.RsIsStableThroughAByte := by
  intro i text k j v w hi hset hj1 hj16 hagain
  have hheld := uprog_eachBefore rsHeld_extends initForcing_rsHeld commandProgram_rsHeld
    (rs_sendByteProgram_rsHeld .h) (.rsHeld_of_no_write fun w => by simp) hi text
  obtain ⟨-, hfree⟩ := hheld.of_getElem? hset v rfl
  refine hfree w (List.mem_of_getElem? (i := j - 1) ?_)
  rw [List.getElem?_take_of_lt (by omega), List.getElem?_drop, ← hagain]
  congr 1
  omega

/-! ## What the bus observer reads back (R141, R68 to R70) -/

/-- A text's nibbles pair up into its bytes, in order. -/
theorem pairUp_text (r : Latch) (text : List Byte) :
    pairUp (text.flatMap fun ch => [⟨r, hiNibble ch⟩, ⟨r, loNibble ch⟩]) = text.map fun ch => ⟨r, ch⟩ := by
  induction text with
  | nil => rfl
  | cons ch text ih => simp [pairUp, ih, nibbles_append]

/-- A command followed by a text is read back as the command byte and then the text, byte for byte. -/
theorem pairUp_observe_command_text (L : Lines) (b : Byte) (text : List Byte) :
    pairUp (observe L false (commandProgram b ++ text.flatMap writeDataProgram)) =
      ⟨.l, b⟩ :: text.map fun ch => ⟨.h, ch⟩ := by
  rw [observe_commandProgram_append, observe_text, pairUp, pairUp_text, nibbles_append]

/-- Settles O57: a command is one with no text after it, a data byte is a text of one byte. -/
theorem observerReadsBackWhatIsSent : Obligations.ObserverReadsBackWhatIsSent := by
  refine ⟨fun L n => ?_, fun L b => ⟨?_, ?_⟩, fun L row col a text ha => ?_⟩
  · simpa [observe] using observe_latchProgram_append L n []
  · simpa using pairUp_observe_command_text L b []
  · have htext := pairUp_text .h [b]
    rw [← observe_text L] at htext
    simpa using htext
  · simpa [printProgram, ha] using pairUp_observe_command_text L a text

/-! ## One step of the host and of the sequencer (R130, R41) -/

/-- Settles O6: the step of an idle block is the host's, and it presents the word. -/
theorem stepRunsTheRequestedInstruction : Obligations.StepRunsTheRequestedInstruction := by
  intro s w rest hr hidle hh
  rw [step_of_idle hr hidle]
  simp [hostStep, hh, State.tick]

/-- The step of a busy block with no delay pending is the sequencer's. -/
theorem step_of_busy {s : State} (hr : s.resetAsserted = false) (hb : s.busy = true) (hp : s.pending = none) :
    step s = sequencerStep s.tick := by
  simp [step, cycle, hr, agentStep, hb, hp]

theorem exec_set_of_wellFormed {l : Line} {v : Level} (h : (MicroOp.set l v).wellFormed = true) (s : State) :
    exec (.set l v) s = .next (s.emitSet l v) := performSet_of_wellFormed h s

/-- Settles O7: a `SET` leaves no delay pending and retires, a `DELAY` leaves its own. -/
theorem stepRunsTheMicroOperationAtUpc : Obligations.StepRunsTheMicroOperationAtUpc := by
  intro s hr hb hp
  rw [step_of_busy hr hb hp]
  refine ⟨fun l v hu hw => ⟨s.tick.emitSet l v, exec_set_of_wellFormed hw _, ?_⟩, fun ms hu => ?_⟩
  · simp [sequencerStep, hu, MicroOp.toInstr, exec_set_of_wellFormed hw, hp]
  · simp only [sequencerStep, State.tick_op, State.tick_upc, hu, MicroOp.toInstr]
    refine (andThen_congr fun t ht => ?_).trans (andThen_next_right _)
    obtain rfl := performDelay_eq_next ht
    rfl

/-! ## `SET` and `DELAY` (R131, R132) -/

/-- Settles O29: the multiplexer routes to the line named. -/
theorem setDrivesOneLine : Obligations.SetDrivesOneLine := by
  intro l v s hl
  have hw : (MicroOp.set l v).wellFormed = true := by
    by_contra h
    obtain ⟨hbl, hnone⟩ := (setWellFormed_eq_false_iff l v).1 (by simpa using h)
    simp [hl hbl] at hnone
  refine ⟨s.emitSet l v, exec_set_of_wellFormed hw s, ?_, fun l' hne => ?_, rfl⟩
  · simp [Lines.get_put]
  · simp [Lines.get_put, hne]

/-- The step of a block with a delay pending is the timing collaborator's. -/
theorem step_of_pending {s : State} {p : PendingDelay} (hr : s.resetAsserted = false) (hp : s.pending = some p) :
    step s = .next (s.tick.collaborator p) := by
  simp [step, cycle, hr, agentStep, hp]

/-- A collaborator that does not return leaves the state as it is. -/
theorem State.collaborator_of_hung {s : State} {p : PendingDelay} (h : s.awaitDelay p.ms = none) :
    s.collaborator p = s := by
  simp [State.collaborator, h]

/-- The return of a delay, whoever handed it out, ends it, lets at least its time pass, and drives no line. -/
theorem State.collaborator_of_return {s t : State} {p : PendingDelay} (h : s.awaitDelay p.ms = some t) :
    (s.collaborator p).lines = s.lines ∧ (s.collaborator p).trace = s.trace ∧ (s.collaborator p).pending = none ∧
      s.now + (p.ms.toNat : Rat) ≤ (s.collaborator p).now := by
  obtain ⟨late, tm, hlate, -, rfl⟩ := State.awaitDelay_eq_some h
  cases ho : p.owner <;> simp [State.collaborator, h, ho, hlate]

/-- Settles O30: a delay is handed out, and the collaborator either returns from it late enough or has hung. -/
theorem delayHoldsForItsTime : Obligations.DelayHoldsForItsTime := by
  refine ⟨fun ms s hne => performDelay_of_wellFormed (by simpa [MicroOp.wellFormed] using hne) s,
    fun s p hr hp => ?_⟩
  refine ⟨s.tick.collaborator p, step_of_pending hr hp, ?_⟩
  cases ha : s.tick.awaitDelay p.ms with
  | none =>
    rw [State.collaborator_of_hung ha]
    refine ⟨rfl, rfl, .inl rfl, fun hs => ?_⟩
    obtain ⟨t, ht⟩ := State.awaitDelay_isSome (s := s.tick) hs p.ms
    simp [ha] at ht
  | some t =>
    obtain ⟨hlines, htrace, hpending, hnow⟩ := State.collaborator_of_return ha
    exact ⟨hlines, htrace, .inr ⟨hpending, hnow⟩, fun _ => ⟨hpending, hnow⟩⟩

/-! ## The nibble encoder (R142) -/

theorem hiNibble_toNat (b : Byte) : (hiNibble b).toNat = b.toNat / 16 := by
  rw [hiNibble, BitVec.extractLsb'_toNat, Nat.shiftRight_eq_div_pow]
  omega

theorem loNibble_toNat (b : Byte) : (loNibble b).toNat = b.toNat % 16 := by
  simp [loNibble]

/-- Settles O48: the nibbles are quotient and remainder by 16, and a bit of a nibble is its binary digit. -/
theorem nibbleEncoderLaws : Obligations.NibbleEncoderLaws := by
  refine ⟨fun b => ⟨hiNibble_toNat b, loNibble_toNat b, ?_⟩, fun n i => Nat.toNat_testBit n.toNat i⟩
  rw [hiNibble_toNat, loNibble_toNat]
  exact Nat.div_add_mod b.toNat 16

end Sys2Proof.Machine

/-! # The power-on handshake (41_init.md): `INIT` accepted, run to its end, and its counts -/

namespace Sys2Proof.Machine

/-! ## An accepted operation runs to its end (R130, R139) -/

theorem State.accept_eq_accepted {i : Instr} {text : List Byte} (hne : uprog ⟨i, text⟩ ≠ []) (s : State) :
    s.accept i text = accepted s i text := if_neg hne

/-- An operation accepted by a ready, undisturbed block is performed to its end: its micro-program in the trace and on
the lines, at least the time it asks for, and `cs` as R37 says. -/
theorem accepted_reaches_done {s : State} (hready : s.ready) (hund : s.undisturbed) {i : Instr} {text : List Byte}
    (hw : i.wellFormed = true) (hne : uprog ⟨i, text⟩ ≠ []) (hcs : i = .init → s.cs = .forcingEightBit) :
    ∃ t, Reaches (accepted s i text) t ∧
      OpDone s t (if i = .init then .configured else s.cs) (uprog ⟨i, text⟩) (s.lines.after (uprog ⟨i, text⟩))
        (requestedMs (uprog ⟨i, text⟩)) := by
  obtain ⟨⟨hbusy, hpending⟩, -⟩ := hready
  obtain ⟨hrst, hstalls⟩ := hund
  obtain ⟨t, hreach, hfin⟩ := sequencer_runs (s := accepted s i text) (uprog_wellFormed hw) rfl hpending hrst hstalls
    rfl hne
  have ht : t.cs = if i = .init then .configured else s.cs := hfin.cs.trans (csAfterNext_uprog hcs)
  refine ⟨t, hreach, ?_, hfin.time⟩
  rw [hfin.eq, ht]
  simp [accepted, hbusy]

/-! ## The micro-program of `INIT` (R160, R163) -/

theorem initEvents_eq : initEvents = initProgram Config.hasBacklight := by
  simp only [initProgram, initForcing, initConfigure, List.append_assoc]
  rfl

theorem uprog_init_ne_nil (text : List Byte) : uprog ⟨.init, text⟩ ≠ [] := List.cons_ne_nil _ _

theorem requestedMs_initProgram (bl : Bool) : requestedMs (initProgram bl) = 52 := by
  cases bl <;> decide

/-- Sending a byte overwrites every line of the bus: nothing before it is left but on the backlight line. -/
theorem byteLines_congr {L M : Lines} (h : L.bl = M.bl) (rs : Latch) (b : Byte) :
    byteLines L rs b = byteLines M rs b := by
  simp [byteLines, nibbleLines, h]

theorem Lines.after_initProgram (L : Lines) (bl : Bool) :
    L.after (initProgram bl) = { byteLines L .l 0x06 with bl := if bl then .h else L.bl } := by
  have hcommands : L.after (initForcing ++ initConfigure) = byteLines L .l 0x06 := by
    simp only [initConfigure, Lines.after_append, Lines.after_commandProgram]
    exact byteLines_congr rfl .l 0x06
  rw [initProgram, Lines.after_append, hcommands]
  cases bl <;> rfl

/-- The raw nibbles of the forcing sequence are latched with `RS` low. -/
theorem observe_initForcing_append (L : Lines) (us : List MicroOp) :
    observe L false (initForcing ++ us) =
      ⟨.l, 0x3⟩ :: ⟨.l, 0x3⟩ :: ⟨.l, 0x3⟩ :: ⟨.l, 0x2⟩ :: observe (L.after initForcing) false us := by
  simp only [initForcing, List.append_assoc, List.cons_append, List.nil_append, observe, observe_latchProgram_append,
    Lines.after_append, Lines.after_latchProgram, Lines.after]
  rfl

theorem observe_initProgram (L : Lines) (bl : Bool) :
    observe L false (initProgram bl) =
      [⟨.l, 0x3⟩, ⟨.l, 0x3⟩, ⟨.l, 0x3⟩, ⟨.l, 0x2⟩, ⟨.l, 0x2⟩, ⟨.l, 0x8⟩, ⟨.l, 0x0⟩, ⟨.l, 0xC⟩, ⟨.l, 0x0⟩, ⟨.l, 0x1⟩,
       ⟨.l, 0x0⟩, ⟨.l, 0x6⟩] := by
  have hbacklight : ∀ M : Lines, observe M false (if bl then [.set .bl blOnLevel] else []) = [] := fun M => by
    cases bl <;> rfl
  simp only [initProgram, initConfigure, List.append_assoc, observe_initForcing_append, observe_commandProgram_append,
    hbacklight]
  rfl

/-- Settles O56: the forcing sequence latches its raw nibbles, each command its two halves, the backlight none. -/
theorem initSendsTwelveNibbles : Obligations.InitSendsTwelveNibbles := fun L bl =>
  ⟨observe_initProgram L bl, latchCycles_initProgram bl, initProgram_length bl, requestedMs_initProgram bl⟩

/-! ## `INIT` from `cs = Unknown` (R160, R161) -/

theorem exec_init_accepts {s : State} (hready : s.ready) (hcs : s.cs = .unknown) :
    exec .init s = .next (accepted { s with cs := .forcingEightBit } .init []) := by
  obtain ⟨⟨hbusy, -⟩, hfault⟩ := hready
  have hnone : initFault s.cs = none := if_pos hcs
  rw [exec, execInit, hnone, busRequest_accepts hbusy hfault]
  exact congrArg _ (State.accept_eq_accepted (uprog_init_ne_nil []) _)

/-- Settles O22: acceptance moves `cs` to `ForcingEightBit`, and from there the micro-program runs to its end. -/
theorem initCompletes : Obligations.InitCompletes := by
  intro s hready hund hcs
  refine ⟨_, exec_init_accepts hready hcs, rfl, ?_⟩
  have hdone := accepted_reaches_done (s := { s with cs := .forcingEightBit }) hready hund (i := .init) (text := []) rfl
    (uprog_init_ne_nil []) fun _ => rfl
  rw [initEvents_eq, ← Lines.after_initProgram, ← requestedMs_initProgram Config.hasBacklight]
  exact hdone

end Sys2Proof.Machine

/-! # Commands and data bytes (42_command_data.md): `COMMAND`, `WRITEDATA` and `CLEAR` run to their end, `CLEAR` against
`COMMAND 0x01`, and where the settle delay stands -/

namespace Sys2Proof.Machine

/-! ## A bus operation on a configured block (R130, R185) -/

/-- A bus operation requested of a ready, undisturbed, configured block is accepted and performed to its end. -/
theorem busRequest_completes {s : State} (hready : s.ready) (hund : s.undisturbed) (hcs : s.cs = .configured)
    {i : Instr} {text : List Byte} (hw : i.wellFormed = true) (hne : uprog ⟨i, text⟩ ≠ []) (hi : i ≠ .init) :
    ∃ u, busRequest (busOpFault s.cs) (fun s => s.accept i text) s = .next u ∧ u = accepted s i text ∧
      ∃ t, Reaches u t ∧
        OpDone s t .configured (uprog ⟨i, text⟩) (s.lines.after (uprog ⟨i, text⟩))
          (requestedMs (uprog ⟨i, text⟩)) := by
  obtain ⟨t, hreach, hdone⟩ := accepted_reaches_done hready hund hw hne fun h => absurd h hi
  rw [if_neg hi, hcs] at hdone
  obtain ⟨⟨hbusy, -⟩, hfault⟩ := hready
  have hnone : busOpFault s.cs = none := if_pos hcs
  refine ⟨_, ?_, rfl, t, hreach, hdone⟩
  rw [hnone, busRequest_accepts hbusy hfault, State.accept_eq_accepted hne]

theorem requestedMs_writeDataProgram (b : Byte) : requestedMs (writeDataProgram b) = 4 := rfl

/-- Settles O23: the micro-program of `COMMAND` runs to its end. -/
theorem commandCompletes : Obligations.CommandCompletes := by
  intro b s hready hund hcs
  rw [← Lines.after_commandProgram, ← requestedMs_commandProgram]
  exact busRequest_completes hready hund hcs (i := .command b) rfl (commandProgram_ne_nil b) (by simp)

/-- Settles O24: the micro-program of `WRITEDATA` runs to its end. -/
theorem writeDataCompletes : Obligations.WriteDataCompletes := by
  intro b s hready hund hcs
  rw [← Lines.after_writeDataProgram, ← requestedMs_writeDataProgram b]
  exact busRequest_completes hready hund hcs (i := .writeData b) rfl (List.cons_ne_nil _ _) (by simp)

/-! ## `CLEAR` and `COMMAND 0x01` (R182) -/

/-- Accepting looks at no more of an operation than its micro-program. -/
theorem State.accept_eq_of_uprog_eq {i j : Instr} {x y : List Byte} (h : uprog ⟨i, x⟩ = uprog ⟨j, y⟩) (s : State) :
    s.accept j y = { s.accept i x with op := ⟨j, y⟩ } := by
  unfold State.accept
  rw [h]
  split <;> rfl

/-- Two bus operations with one own fault and one micro-program differ, on an idle block, in the operand latches only:
the checks before acceptance answer both alike. -/
theorem busRequest_eq_of_uprog_eq {i j : Instr} {x y : List Byte} (h : uprog ⟨i, x⟩ = uprog ⟨j, y⟩)
    (own : Option FaultCode) {s : State} (hb : s.busy = false) :
    ∃ u v, busRequest own (fun s => s.accept i x) s = .next u ∧ busRequest own (fun s => s.accept j y) s = .next v ∧
      v = { u with op := v.op } := by
  cases hf : s.fault with
  | some c => exact ⟨_, _, busRequest_faulted hb hf, busRequest_faulted hb hf, rfl⟩
  | none =>
    cases own with
    | some c => exact ⟨_, _, busRequest_raises hb hf, busRequest_raises hb hf, rfl⟩
    | none =>
      refine ⟨_, _, busRequest_accepts hb hf, busRequest_accepts hb hf, ?_⟩
      rw [State.accept_eq_of_uprog_eq h]

theorem uprog_clear (x y : List Byte) : uprog ⟨.clear, x⟩ = uprog ⟨.command 0x01, y⟩ := rfl

/-- Settles O25: `CLEAR` has the micro-program of `COMMAND 0x01`, and the rest follows from it. -/
theorem clearIsCommandOne : Obligations.ClearIsCommandOne := by
  refine ⟨fun s hready hund hcs => ?_, rfl, uprog_clear, fun s hb => ?_⟩
  · have hms : requestedMs (commandProgram 0x01) = 6 := requestedMs_commandProgram 0x01
    rw [← Lines.after_commandProgram, ← hms]
    exact busRequest_completes hready hund hcs (i := .clear) rfl (commandProgram_ne_nil 0x01) (by simp)
  · exact busRequest_eq_of_uprog_eq (uprog_clear [] []) _ hb

/-! ## The settle delay (R183) -/

/-- Sending a byte asks for no settle delay, with the mode-select line at either level. -/
theorem settle_not_mem_rs_sendByteProgram (v : Level) (b : Byte) : .delay 2 ∉ .set .rs v :: sendByteProgram b := by
  simp [sendByteProgram, latchProgram]

theorem settle_not_mem_writeDataProgram (b : Byte) : .delay 2 ∉ writeDataProgram b :=
  settle_not_mem_rs_sendByteProgram .h b

/-- One settle delay after command `0x01`, none after another command. -/
theorem count_settle_commandProgram (b : Byte) : (commandProgram b).count (.delay 2) = if b = 0x01 then 1 else 0 := by
  have hbyte : (MicroOp.set .rs .l :: sendByteProgram b).count (.delay 2) = 0 :=
    List.count_eq_zero.2 (settle_not_mem_rs_sendByteProgram .l b)
  rw [commandProgram, List.count_append, hbyte, Nat.zero_add]
  split <;> rfl

theorem settle_mem_commandProgram_iff (b : Byte) : .delay 2 ∈ commandProgram b ↔ b = 0x01 := by
  rw [← List.count_pos_iff, count_settle_commandProgram]
  split
  · exact iff_of_true Nat.one_pos ‹_›
  · exact iff_of_false (Nat.lt_irrefl 0) ‹_›

/-- A set-address byte is at least `0x80` (R200). -/
theorem posCmd_ne_one {row col a : Byte} (h : posCmd row col = some a) : a ≠ 0x01 := by
  unfold posCmd at h
  split at h
  · obtain rfl := Option.some.inj h
    bv_omega
  split at h
  · obtain rfl := Option.some.inj h
    bv_omega
  · cases h

theorem settle_not_mem_printProgram (row col : Byte) (text : List Byte) : .delay 2 ∉ printProgram row col text := by
  unfold printProgram
  cases ha : posCmd row col with
  | none => exact List.not_mem_nil
  | some a =>
    have htext : .delay 2 ∉ text.flatMap writeDataProgram := fun h => by
      obtain ⟨b, -, hb⟩ := List.mem_flatMap.1 h
      exact settle_not_mem_writeDataProgram b hb
    exact List.not_mem_append (mt (settle_mem_commandProgram_iff a).1 (posCmd_ne_one ha)) htext

/-- `INIT` settles once, after its own command `0x01` (R165). -/
theorem count_settle_initProgram (bl : Bool) : (initProgram bl).count (.delay 2) = 1 := by
  have hforcing : initForcing.count (.delay 2) = 0 := by decide
  have hbacklight : (if bl then [MicroOp.set .bl blOnLevel] else []).count (.delay 2) = 0 := by
    cases bl <;> rfl
  simp only [initProgram, initConfigure, List.count_append, hforcing, hbacklight, count_settle_commandProgram]
  rfl

/-- Settles O52: every micro-program is made of commands and data bytes, and of these only command `0x01` settles. -/
theorem onlyCommandOneSettles : Obligations.OnlyCommandOneSettles :=
  ⟨fun b _ => settle_mem_commandProgram_iff b,
    fun _ => (settle_mem_commandProgram_iff 0x01).2 rfl,
    fun _ => count_settle_initProgram Config.hasBacklight,
    fun b _ => settle_not_mem_writeDataProgram b,
    fun row col _ => show _ ∉ setPositionProgram row col from
      setPositionProgram_eq row col ▸ settle_not_mem_printProgram row col [],
    fun row col _ text => settle_not_mem_printProgram row col text⟩

end Sys2Proof.Machine

/-! # Position and text (43_position_print.md): the address function, and `SETPOSITION` and `PRINT` run to their end -/

namespace Sys2Proof.Machine

/-! ## The address function (R200, R203) -/

theorem clampCol_toNat (col : Byte) : (clampCol col).toNat = min col.toNat 15 := by
  rw [clampCol, BitVec.toNat_ofNat]
  omega

/-- A valid row gives its base address plus the clamped column, and no other row gives anything. -/
theorem posCmd_eq_some_iff (row col a : Byte) :
    posCmd row col = some a ↔
      (row = 0 ∨ row = 1) ∧ a = (if row = 0 then 0x80 else 0xC0) + (clampCol col).setWidth 8 := by
  unfold posCmd
  by_cases h0 : row = 0
  · simp [h0, eq_comm]
  rw [if_neg h0, if_neg h0]
  by_cases h1 : row = 1
  · simp [h1, eq_comm]
  · rw [if_neg h1]
    exact ⟨nofun, fun h => absurd h.1 (not_or.2 ⟨h0, h1⟩)⟩

theorem posCmd_eq_none {row : Byte} (h0 : row ≠ 0) (h1 : row ≠ 1) (col : Byte) : posCmd row col = none := by
  rw [posCmd, if_neg h0, if_neg h1]

/-- The set-address byte as a number: the sum does not carry out of the byte. -/
theorem posCmd_eq_some_iff_toNat (row col a : Byte) :
    posCmd row col = some a ↔
      (row = 0 ∨ row = 1) ∧ a.toNat = (if row = 0 then 0x80 else 0xC0) + min col.toNat 15 := by
  have hsum : ((if row = 0 then 0x80 else 0xC0) + (clampCol col).setWidth 8 : Byte).toNat =
      (if row = 0 then 0x80 else 0xC0) + min col.toNat 15 := by
    have hclamp := clampCol_toNat col
    split <;> bv_omega
  rw [posCmd_eq_some_iff, ← hsum, BitVec.toNat_inj]

/-- The base addresses end in a zero nibble, so adding the clamped column is setting its bits. -/
theorem base_add_eq_or (row : Byte) (c : Nibble) :
    ((if row = 0 then 0x80 else 0xC0) + c.setWidth 8 : Byte) = (if row = 0 then 0x80 else 0xC0) ||| c.setWidth 8 := by
  split <;> revert c <;> decide

theorem clampCol_setWidth (col : Byte) : (clampCol col).setWidth 8 = BitVec.ofNat 8 (min col.toNat 15) := by
  apply BitVec.eq_of_toNat_eq
  have hclamp := clampCol_toNat col
  simp only [BitVec.toNat_setWidth, BitVec.toNat_ofNat]
  omega

/-- Settles O49: every law is read off the byte as a sum, the sum over the naturals or the sum without a carry. -/
theorem addressFunctionLaws : Obligations.AddressFunctionLaws := by
  intro row col a ha
  obtain ⟨hrow, hsum⟩ := (posCmd_eq_some_iff row col a).1 ha
  obtain ⟨-, hnat⟩ := (posCmd_eq_some_iff_toNat row col a).1 ha
  refine ⟨hrow, ?_, ?_, hnat, ?_, posCmd_ne_one ha⟩
  · rw [loNibble_toNat, hnat]
    split <;> omega
  · apply BitVec.eq_of_toNat_eq
    rw [hiNibble_toNat, hnat]
    split <;> simp only [BitVec.reduceToNat] <;> omega
  · rw [hsum, base_add_eq_or, clampCol_setWidth]

/-- The column counts only up to 15 (R208). -/
theorem clampCol_of_le {col : Byte} (h : 15 ≤ col.toNat) : clampCol col = clampCol 15 := by
  rw [clampCol, min_eq_right h]
  rfl

theorem posCmd_of_le (row : Byte) {col : Byte} (h : 15 ≤ col.toNat) : posCmd row col = posCmd row 15 := by
  simp only [posCmd, clampCol_of_le h]

/-! ## The micro-programs of `SETPOSITION` and `PRINT` (R201, R202) -/

theorem uprog_print (row col len : Byte) (text : List Byte) :
    uprog ⟨.print row col len, text⟩ = printProgram row col text := rfl

/-- A position command is a `PRINT` of no text (R207). -/
theorem uprog_setPosition (row col : Byte) (text : List Byte) :
    uprog ⟨.setPosition row col, text⟩ = printProgram row col [] := setPositionProgram_eq row col

theorem printProgram_of_valid {row col a : Byte} (ha : posCmd row col = some a) (text : List Byte) :
    printProgram row col text = commandProgram a ++ text.flatMap writeDataProgram := by
  rw [printProgram, ha]

theorem printProgram_of_invalid {row : Byte} (h0 : row ≠ 0) (h1 : row ≠ 1) (col : Byte) (text : List Byte) :
    printProgram row col text = [] := by
  rw [printProgram, posCmd_eq_none h0 h1]

theorem printProgram_ne_nil {row : Byte} (hrow : row = 0 ∨ row = 1) (col : Byte) (text : List Byte) :
    printProgram row col text ≠ [] := by
  rw [printProgram_of_valid ((posCmd_eq_some_iff row col _).2 ⟨hrow, rfl⟩)]
  exact List.append_ne_nil_of_left_ne_nil (commandProgram_ne_nil _) _

/-- Settles O50: the column enters the micro-program through the address function only. -/
theorem columnsFrom15AreColumn15 : Obligations.ColumnsFrom15AreColumn15 := by
  intro row col len text h
  simp only [uprog_print, printProgram, posCmd_of_le row h]

/-- Settles O51: a `PRINT` of length 0 samples no text. -/
theorem emptyTextIsSetPosition : Obligations.EmptyTextIsSetPosition := by
  intro row col s
  have hempty : printText s 0 = [] := rfl
  rw [uprog_print, uprog_setPosition, hempty]
  exact ⟨rfl, fun h0 h1 => printProgram_of_invalid h0 h1 col []⟩

/-! ## A valid row (R201, R202) -/

theorem requestedMs_text (text : List Byte) : requestedMs (text.flatMap writeDataProgram) = 4 * text.length := by
  induction text with
  | nil => rfl
  | cons ch text ih =>
    rw [List.flatMap_cons, requestedMs_append, requestedMs_writeDataProgram, ih, List.length_cons]
    omega

/-- The position command does not settle (R203), so each byte takes 4 ms. -/
theorem requestedMs_printProgram {row col a : Byte} (ha : posCmd row col = some a) (text : List Byte) :
    requestedMs (printProgram row col text) = 4 + 4 * text.length := by
  have hms : commandMs a = 4 := if_neg (posCmd_ne_one ha)
  rw [printProgram_of_valid ha, requestedMs_append, requestedMs_commandProgram, requestedMs_text, hms]

/-- A text leaves its last byte on the lines, and an empty text leaves them alone. -/
theorem Lines.after_text (L : Lines) (text : List Byte) :
    L.after (text.flatMap writeDataProgram) = text.getLast?.elim L (byteLines L .h) := by
  induction text generalizing L with
  | nil => rfl
  | cons ch text ih =>
    rw [List.flatMap_cons, Lines.after_append, Lines.after_writeDataProgram, ih, List.getLast?_cons]
    cases text.getLast? with
    | none => rfl
    | some last => exact byteLines_congr rfl .h last

theorem Lines.after_printProgram (L : Lines) {row col a : Byte} (ha : posCmd row col = some a) (text : List Byte) :
    L.after (printProgram row col text) = text.getLast?.elim (byteLines L .l a) (byteLines L .h) := by
  rw [printProgram_of_valid ha, Lines.after_append, Lines.after_commandProgram, Lines.after_text]
  cases text.getLast? with
  | none => rfl
  | some last => exact byteLines_congr rfl .h last

/-- Settles O26: the micro-program is the command's with the set-address byte. -/
theorem setPositionCompletes : Obligations.SetPositionCompletes := by
  intro row col s hready hund hcs hrow
  obtain ⟨u, hu, haccepted, t, hreach, hdone⟩ := busRequest_completes hready hund hcs (i := .setPosition row col)
    (text := []) rfl (uprog_setPosition row col [] ▸ printProgram_ne_nil hrow col []) (by simp)
  refine ⟨u, hu, haccepted, t, hreach, fun a ha => ?_⟩
  have hpos : posCmd row col = some a := (posCmd_eq_some_iff_toNat row col a).2 ⟨hrow, ha⟩
  rw [uprog_setPosition, requestedMs_printProgram hpos, Lines.after_printProgram _ hpos, printProgram_of_valid hpos,
    List.flatMap_nil, List.append_nil] at hdone
  exact hdone

/-! ## The text of a `PRINT` (R61, R70, R95) -/

theorem printText_eq_map_txtRead (s : State) (len : Byte) :
    printText s len = (List.range len.toNat).map fun k => txtRead s (BitVec.ofNat 8 k) := by
  refine List.map_congr_left fun k hk => ?_
  have hlt : k < 256 := (List.mem_range.1 hk).trans len.isLt
  rw [txtRead, BitVec.toNat_ofNat, Nat.mod_eq_of_lt hlt]

theorem printText_getLast? (s : State) (len : Byte) :
    (printText s len).getLast? = if len = 0 then none else some (txtRead s (len - 1)) := by
  split
  · subst len
    rfl
  · rename_i hlen
    have hsucc : len.toNat = (len - 1).toNat + 1 := by bv_omega
    rw [printText, hsucc, List.range_succ, List.map_append]
    exact List.getLast?_concat

/-- Settles O27: the micro-program is the position command's and then one data byte's for each byte of the text. -/
theorem printCompletes : Obligations.PrintCompletes := by
  intro row col len s hready hund hcs hrow
  obtain ⟨u, hu, haccepted, t, hreach, hdone⟩ := busRequest_completes hready hund hcs (i := .print row col len)
    (text := printText s len) rfl (printProgram_ne_nil hrow col _) (by simp)
  refine ⟨u, hu, haccepted, t, hreach, fun a ha => ?_⟩
  have hpos : posCmd row col = some a := (posCmd_eq_some_iff_toNat row col a).2 ⟨hrow, ha⟩
  have hlines : s.lines.after (printProgram row col (printText s len)) =
      if len = 0 then byteLines s.lines .l a else byteLines s.lines .h (txtRead s (len - 1)) := by
    rw [Lines.after_printProgram _ hpos, printText_getLast?]
    split <;> rfl
  have hevents : printProgram row col (printText s len) = commandEvents a ++
      (List.range len.toNat).flatMap fun k => byteEvents .h (txtRead s (BitVec.ofNat 8 k)) := by
    rw [printProgram_of_valid hpos, printText_eq_map_txtRead, List.flatMap_map]
    rfl
  rw [uprog_print, hlines, requestedMs_printProgram hpos, printText_length, hevents] at hdone
  exact hdone

/-! ## An invalid row (R205) -/

/-- A bus operation with nothing to do, on a ready and configured block, is answered at once. -/
theorem busRequest_of_uprog_nil {s : State} (hready : s.ready) (hcs : s.cs = .configured) {i : Instr}
    {text : List Byte} (hnil : uprog ⟨i, text⟩ = []) :
    busRequest (busOpFault s.cs) (fun s => s.accept i text) s =
      .next { s with op := ⟨i, text⟩, upc := 0, resp := some ⟨none, none⟩ } := by
  obtain ⟨⟨hbusy, -⟩, hfault⟩ := hready
  have hnone : busOpFault s.cs = none := if_pos hcs
  have haccept : s.accept i text = (s.begin i text).complete := if_pos hnil
  rw [hnone, busRequest_accepts hbusy hfault, haccept]
  simp [State.begin, State.complete, State.respond, hbusy]

/-- Settles O28: with an invalid row the address function gives no command, and the micro-program is empty. -/
theorem invalidRowDoesNothing : Obligations.InvalidRowDoesNothing := by
  intro row col len s hready hcs h0 h1
  have hnil := printProgram_of_invalid h0 h1 col
  have hposition : uprog ⟨.setPosition row col, []⟩ = [] := (uprog_setPosition row col []).trans (hnil [])
  have hprint : uprog ⟨.print row col len, printText s len⟩ = [] := hnil (printText s len)
  exact ⟨busRequest_of_uprog_nil hready hcs hposition, busRequest_of_uprog_nil hready hcs hprint⟩

end Sys2Proof.Machine

/-! # The linearizer (44_linearizer.md): `CONVERT` writes one value whatever the state, and what binary32 holds exactly -/

namespace Sys2Proof.Machine

/-! ## What `CONVERT` does (R220, R227) -/

theorem exec_convert (code : SampleCode) (s : State) :
    exec (.convert code) s =
      .next { s with temp := some (convertValue code), resp := some ⟨none, some (convertValue code)⟩ } := rfl

/-! ## The value it writes (R220, R221) -/

theorem convertWith_open (n : Num) : convertWith n 4095 = .posInf := if_pos rfl

theorem convertWith_of_ne (n : Num) {code : SampleCode} (h : code ≠ 4095) :
    convertWith n code =
      n.fsub (n.fdiv (.finite 1) (inverseTemp n (logResistance n code))) (.finite kelvinOffset) := if_neg h

/-- The subtraction from 4095 does not borrow. -/
theorem toNat_4095_sub (code : SampleCode) : (4095 - code).toNat = 4095 - code.toNat := by bv_omega

theorem ofNat_4095_sub_toNat (code : SampleCode) : BitVec.ofNat 12 (4095 - code.toNat) = 4095 - code := by
  rw [← toNat_4095_sub, BitVec.ofNat_toNat, BitVec.setWidth_eq]

/-- Settles O42: away from the open-circuit code the value is the formula's, quantity by quantity (R223). -/
theorem convertEvaluatesTheFormula : Obligations.ConvertEvaluatesTheFormula := by
  intro code s hcode
  refine ⟨resistance num code, logResistance num code, inverseTemp num (logResistance num code), convertValue code,
    ?_, rfl, rfl, convertWith_of_ne num hcode, exec_convert code s⟩
  rw [ofNat_4095_sub_toNat]
  rfl

/-- Settles O43: the guard comes before any operation of the numerics. -/
theorem openCircuitIsInfinity : Obligations.OpenCircuitIsInfinity := by
  refine ⟨convertWith_open, fun s => ⟨none, ?_⟩⟩
  rw [exec_convert, convertValue, convertWith_open]

/-- Settles O44: the block's record is admissible, and `CONVERT` writes the value it is admissible for. -/
theorem convertIsFiniteOnItsRange : Obligations.ConvertIsFiniteOnItsRange :=
  fun code s h1 h2 => ⟨_, _, exec_convert code s, rfl, num_admissible.finite code ⟨h1, h2⟩⟩

theorem Temp.below_eq_true {a b : Temp} (h : a.below b = true) :
    ∃ x y, a.value? = some x ∧ b.value? = some y ∧ x < y := by
  unfold Temp.below at h
  split at h
  · exact ⟨_, _, ‹_›, ‹_›, of_decide_eq_true h⟩
  · cases h

/-- Settles O45: the block's record is admissible, and between finite values `below` is the order of the rationals. -/
theorem convertIsStrictlyDecreasing : Obligations.ConvertIsStrictlyDecreasing := by
  intro a b ha hab hb
  obtain ⟨y, x, hy, hx, hlt⟩ :=
    Temp.below_eq_true (num_admissible.decreasing a b ⟨ha, by omega⟩ ⟨by omega, hb⟩ hab)
  exact ⟨x, y, hx, hy, hlt⟩

/-- Settles O46: the value depends on the code alone, and nothing else but the response is written. -/
theorem convertIsIndependentOfTheDriver : Obligations.ConvertIsIndependentOfTheDriver :=
  fun code s s' => ⟨_, _, exec_convert code s, exec_convert code s', rfl, rfl⟩

/-! ## Rounding to binary32 (R225)

A value less than half a unit above a whole number of units in the last place is rounded down to it. So a natural number
of binary logarithm `l` is a binary32 value when it is a whole number of units, each `2 ^ (l - 23)`. -/

theorem pow2_eq_zpow (e : Int) : pow2 e = (2 : Rat) ^ e := by
  unfold pow2
  split
  · rename_i h
    rw [Nat.cast_pow, Nat.cast_ofNat, ← zpow_natCast, Int.toNat_of_nonneg h]
  · rename_i h
    rw [Nat.cast_pow, Nat.cast_ofNat, ← zpow_natCast, Int.toNat_of_nonneg (by omega), one_div, ← zpow_neg, neg_neg]

theorem pow2_natCast (k : Nat) : pow2 k = ((2 ^ k : Nat) : Rat) := if_pos (Int.natCast_nonneg k)

theorem pow2_pos (e : Int) : 0 < pow2 e := by
  rw [pow2_eq_zpow]
  positivity

theorem roundEven_of_lt_half {a : Rat} {k : Nat} (hk : k ≤ a) (ha : a < k + 1 / 2) : roundEven a = k := by
  have hnext : a < ((k : Int) : Rat) + 1 := by
    push_cast
    linarith
  have hfloor : a.floor = k := Int.floor_eq_iff.2 ⟨hk, hnext⟩
  have hrest : a - k < 1 / 2 := by linarith
  rw [roundEven, hfloor, Int.toNat_natCast]
  exact if_pos hrest

/-- The unit in the last place of a binary32 value of magnitude `a`. -/
abbrev ulp32 (a : Rat) : Rat := pow2 (max (floorLog2 a) (-126) - 23)

theorem roundMag32_of_lt_half {a : Rat} {k : Nat} (hk : k * ulp32 a ≤ a) (ha : a < (k + 1 / 2) * ulp32 a) :
    roundMag32 a = k * ulp32 a := by
  have hulp : 0 < ulp32 a := pow2_pos _
  rw [roundMag32, roundEven_of_lt_half ((le_div_iff₀ hulp).2 hk) ((div_lt_iff₀ hulp).2 ha)]

/-- A positive value whose magnitude neither vanishes nor overflows. -/
theorem round32_of_pos {q m : Rat} (hq : 0 < q) (hround : roundMag32 q = m) (hm : 0 < m) (hfits : m < pow2 128) :
    round32 false q = .finite m := by
  simp only [round32, if_neg hq.ne', if_neg hq.not_gt, hround, if_neg hm.ne', if_neg hfits.not_ge]

/-! ## The natural numbers binary32 holds -/

theorem floorLog2_natCast {n : Nat} (hn : n ≠ 0) : floorLog2 n = n.log2 := by
  have hle : pow2 n.log2 ≤ n := by
    rw [pow2_natCast]
    exact_mod_cast Nat.log2_self_le hn
  have hone : Nat.log2 1 = 0 := by decide
  simp [floorLog2, hone, hle]

theorem ulp32_natCast {n : Nat} (hn : n ≠ 0) : ulp32 n = pow2 ((n.log2 : Int) - 23) := by
  rw [ulp32, floorLog2_natCast hn, max_eq_left (by omega)]

/-- A number with nothing below its 24 leading bits is a whole number of units. -/
theorem exists_natCast_eq_mul_pow2 {n : Nat} (hdvd : 2 ^ (n.log2 - 23) ∣ n) :
    ∃ k : Nat, (n : Rat) = k * pow2 ((n.log2 : Int) - 23) := by
  by_cases hl : n.log2 ≤ 23
  · refine ⟨n * 2 ^ (23 - n.log2), ?_⟩
    rw [Nat.cast_mul, ← pow2_natCast, pow2_eq_zpow, pow2_eq_zpow, mul_assoc, ← zpow_add₀ two_ne_zero,
      Nat.cast_sub hl]
    simp
  · obtain ⟨k, hk⟩ := hdvd
    refine ⟨k, ?_⟩
    rw [show (n.log2 : Int) - 23 = ((n.log2 - 23 : Nat) : Int) by omega, pow2_natCast, ← Nat.cast_mul, mul_comm, ← hk]

theorem round32_natCast {n : Nat} (hdvd : 2 ^ (n.log2 - 23) ∣ n) (hlt : n < 2 ^ 128) :
    round32 false n = .finite n := by
  by_cases hn : n = 0
  · subst hn
    rfl
  · have hpos : (0 : Rat) < n := by exact_mod_cast Nat.pos_of_ne_zero hn
    obtain ⟨k, hk⟩ := exists_natCast_eq_mul_pow2 hdvd
    rw [← ulp32_natCast hn] at hk
    have hulp : 0 < ulp32 n := pow2_pos _
    have hmag : roundMag32 n = n := (roundMag32_of_lt_half hk.ge (by linarith)).trans hk.symm
    have hfits : (n : Rat) < pow2 128 := by
      rw [show (128 : Int) = (128 : Nat) from rfl, pow2_natCast]
      exact_mod_cast hlt
    exact round32_of_pos hpos hmag hpos hfits

theorem lit32_natCast {n : Nat} (hdvd : 2 ^ (n.log2 - 23) ∣ n) (hlt : n < 2 ^ 128) : lit32 n = n := by
  rw [lit32, round32_natCast hdvd hlt]
  rfl

theorem mul32_natCast (m n : Nat) : mul32 (.finite m) (.finite n) = round32 false ((m * n : Nat) : Rat) := by
  have hm : ¬ (m : Rat) < 0 := not_lt.2 m.cast_nonneg
  have hn : ¬ (n : Rat) < 0 := not_lt.2 n.cast_nonneg
  simp [mul32, signOf, classOf, hm, hn]

/-! ## The constants and the products of the formula -/

theorem sampleCode_fits (code : SampleCode) : 2 ^ (code.toNat.log2 - 23) ∣ code.toNat := by
  have hlog : code.toNat.log2 ≤ 23 := by
    by_cases h0 : code.toNat = 0
    · simp [h0]
    · exact Nat.le_of_lt_succ ((Nat.log2_lt h0).2 (by omega))
  rw [Nat.sub_eq_zero_of_le hlog]
  exact one_dvd _

/-- `10000·code` has 26 bits at most, and its last four are zero. -/
theorem product_fits (code : SampleCode) : 2 ^ ((10000 * code.toNat).log2 - 23) ∣ 10000 * code.toNat := by
  have hlog : (10000 * code.toNat).log2 - 23 ≤ 4 := by
    by_cases h0 : 10000 * code.toNat = 0
    · simp [h0]
    · have := (Nat.log2_lt (k := 26) h0).2 (by omega)
      omega
  exact (pow_dvd_pow 2 hlog).trans ((by decide : 2 ^ 4 ∣ 10000).mul_right _)

theorem lit32_rFixed : lit32 10000 = (10000 : Nat) := lit32_natCast (n := 10000) (by decide) (by decide)

theorem floorLog2_kelvinOffset : floorLog2 kelvinOffset = 8 := by
  have hnum : kelvinOffset.num = 5463 := by norm_num [kelvinOffset]
  have hden : kelvinOffset.den = 20 := by norm_num [kelvinOffset]
  have hexp : ((Nat.log2 (Int.natAbs 5463) : Int) - (Nat.log2 20 : Int)) = 8 := by decide
  have hle : pow2 8 ≤ kelvinOffset := by norm_num [pow2_eq_zpow, kelvinOffset]
  rw [floorLog2, hnum, hden, hexp]
  exact if_pos hle

/-- `273.15` lies a fifth of a unit above a binary32 value. -/
theorem round32_kelvinOffset :
    round32 false kelvinOffset = .finite (273149993896484375 / 1000000000000000) := by
  have hulp : ulp32 kelvinOffset = 1 / 32768 := by
    rw [ulp32, floorLog2_kelvinOffset]
    rfl
  have hmag : roundMag32 kelvinOffset = (8950579 : Nat) * ulp32 kelvinOffset := by
    refine roundMag32_of_lt_half ?_ ?_ <;> rw [hulp, kelvinOffset] <;> norm_num
  have hvalue : (8950579 : Nat) * ulp32 kelvinOffset = 273149993896484375 / 1000000000000000 := by
    norm_num [hulp]
  exact round32_of_pos (by norm_num [kelvinOffset]) (hmag.trans hvalue) (by norm_num) (by norm_num [pow2_eq_zpow])

/-- Settles O47: the integers and the products fit in 24 significant bits, and `273.15` is rounded. -/
theorem binary32ExactnessFacts : Obligations.Binary32ExactnessFacts := by
  refine ⟨fun code => ?_, fun code => lit32_natCast (sampleCode_fits code) (by omega), fun code hcode => ?_, ?_,
    fun ln a b c x => congrArg (sub32 x) round32_kelvinOffset⟩
  · rw [lit32_rFixed, mul32_natCast, round32_natCast (product_fits code) (by omega), Nat.cast_mul, Nat.cast_ofNat]
  · refine ⟨?_, toNat_4095_sub code⟩
    bv_omega
  · rw [← kelvinOffset, lit32, round32_kelvinOffset]
    rfl

end Sys2Proof.Machine

/-! # Exceptions (60_exceptions.md): the checks on a request and fault entry, what a fault and a stalled collaborator
hold still, and what the host asks and shows -/

namespace Sys2Proof.Machine

/-! ## The checks on a bus operation (R252 to R258) -/

/-- The fault a bus operation raises for itself in state `cs`, if any (R255 steps 4 and 5, R263). -/
def ownFault (i : Instr) (cs : CtrlState) : Option FaultCode :=
  match i with
  | .init => initFault cs
  | _ => busOpFault cs

theorem ownFault_init_of_ne {cs : CtrlState} (h : cs ≠ .unknown) : ownFault .init cs = some .reinit := if_neg h

theorem ownFault_of_ne_init {i : Instr} (hi : i ≠ .init) (cs : CtrlState) : ownFault i cs = busOpFault cs := by
  cases i with
  | init => exact absurd rfl hi
  | _ => rfl

theorem ownFault_of_ne_configured {i : Instr} (hi : i ≠ .init) {cs : CtrlState} (h : cs ≠ .configured) :
    ownFault i cs = some .notConfigured := (ownFault_of_ne_init hi cs).trans (if_neg h)

/-- An operation has no fault of its own in the one state that admits it (R263). -/
theorem ownFault_eq_none {i : Instr} {cs : CtrlState} (hinit : i = .init → cs = .unknown)
    (hother : i ≠ .init → cs = .configured) : ownFault i cs = none := by
  by_cases hi : i = .init
  · subst hi
    exact if_pos (hinit rfl)
  · exact (ownFault_of_ne_init hi cs).trans (if_pos (hother hi))

/-- Every bus operation makes the same checks and, if it passes them, latches itself; `INIT` moves `cs` too (R37). -/
theorem exec_busOperation {i : Instr} (hi : isBusOperation i = true) (s : State) :
    ∃ go cs text, exec i s = busRequest (ownFault i s.cs) go s ∧ go s = ({ s with cs := cs }).accept i text := by
  cases i with
  | init => exact ⟨fun s => ({ s with cs := .forcingEightBit }).accept .init [], .forcingEightBit, [], rfl, rfl⟩
  | command b => exact ⟨fun s => s.accept (.command b) [], s.cs, [], rfl, rfl⟩
  | writeData b => exact ⟨fun s => s.accept (.writeData b) [], s.cs, [], rfl, rfl⟩
  | setPosition row col => exact ⟨fun s => s.accept (.setPosition row col) [], s.cs, [], rfl, rfl⟩
  | print row col len =>
    exact ⟨fun s => s.accept (.print row col len) (printText s len), s.cs, printText s len, rfl, rfl⟩
  | clear => exact ⟨fun s => s.accept .clear [], s.cs, [], rfl, rfl⟩
  | _ => cases hi

theorem exec_busOperation_faulted {i : Instr} (hi : isBusOperation i = true) {s : State} (hb : s.busy = false)
    {c : FaultCode} (hf : s.fault = some c) : exec i s = .next { s with resp := some ⟨some c, none⟩ } := by
  obtain ⟨go, cs, text, hexec, -⟩ := exec_busOperation hi s
  exact hexec.trans (busRequest_faulted hb hf)

theorem exec_busOperation_raises {i : Instr} (hi : isBusOperation i = true) {s : State} (hb : s.busy = false)
    (hf : s.fault = none) {c : FaultCode} (hown : ownFault i s.cs = some c) :
    exec i s = .next (faultEntered s c) := by
  obtain ⟨go, cs, text, hexec, -⟩ := exec_busOperation hi s
  rw [hexec, hown]
  exact busRequest_raises hb hf

theorem exec_busOperation_accepts {i : Instr} (hi : isBusOperation i = true) {s : State} (hb : s.busy = false)
    (hf : s.fault = none) (hown : ownFault i s.cs = none) :
    ∃ cs text, exec i s = .next (({ s with cs := cs }).accept i text) := by
  obtain ⟨go, cs, text, hexec, hgo⟩ := exec_busOperation hi s
  exact ⟨cs, text, by rw [hexec, hown, busRequest_accepts hb hf, hgo]⟩

theorem exec_init_raises {s : State} (hb : s.busy = false) (hf : s.fault = none) (hcs : s.cs ≠ .unknown) :
    exec .init s = .next (faultEntered s .reinit) := exec_busOperation_raises rfl hb hf (ownFault_init_of_ne hcs)

theorem exec_busOperation_notConfigured {i : Instr} (hi : isBusOperation i = true) (hne : i ≠ .init) {s : State}
    (hb : s.busy = false) (hf : s.fault = none) (hcs : s.cs ≠ .configured) :
    exec i s = .next (faultEntered s .notConfigured) :=
  exec_busOperation_raises hi hb hf (ownFault_of_ne_configured hne hcs)

theorem exec_illegal {s : State} (hb : s.busy = false) (w : RequestWord) :
    exec (.illegal w) s = .next (faultEntered s .illegalReq) := illegalWordsFault.2 w s hb

/-- Settles O36: `INIT` has a fault of its own in every state but `Unknown`. -/
theorem secondInitFaults : Obligations.SecondInitFaults := fun _ => exec_init_raises

/-- Settles O37: the check stands before the address function, so the operands do not matter. -/
theorem busOperationsNeedConfigured : Obligations.BusOperationsNeedConfigured :=
  fun _ _ hi hne => exec_busOperation_notConfigured hi hne

/-- Settles O38: each of the three requests enters its fault, and fault entry touches two fields. -/
theorem faultEntryKeepsTheFirstCode : Obligations.FaultEntryKeepsTheFirstCode := by
  intro s i c hb hcause
  have hentry : exec i s = .next (faultEntered s c) := by
    rcases hcause with ⟨⟨w, rfl⟩, rfl⟩ | ⟨hf, rfl, hcs, rfl⟩ | ⟨hf, hi, hne, hcs, rfl⟩
    · exact exec_illegal hb w
    · exact exec_init_raises hb hf hcs
    · exact exec_busOperation_notConfigured hi hne hb hf hcs
  exact ⟨_, hentry, fun hf => by simp [faultEntered, hf], fun d hf => by simp [faultEntered, hf], rfl, rfl, rfl, rfl,
    rfl, hb, rfl, rfl⟩

/-- Settles O39: the stored code is the first thing checked, and `CONVERT` makes no check. -/
theorem faultedBlockRefuses : Obligations.FaultedBlockRefuses := by
  intro s c hb hf
  exact ⟨fun i hi => exec_busOperation_faulted hi hb hf, fun code => ⟨_, exec_convert code s, rfl, hf⟩,
    by simp [State.goodFinal, hf]⟩

/-- What R255 has a bus operation requested of an idle block come to, its steps 3 to 6 in their order. -/
def CheckedInOrder (i : Instr) (s : State) : Prop :=
  match s.fault with
  | some c => exec i s = .next { s with resp := some ⟨some c, none⟩ }
  | none =>
    if i = .init ∧ s.cs ≠ .unknown then exec i s = .next (faultEntered s .reinit)
    else if i ≠ .init ∧ s.cs ≠ .configured then exec i s = .next (faultEntered s .notConfigured)
    else ∃ t, exec i s = .next t ∧ t.op.instr = i ∧ t.upc = 0 ∧ t.fault = none ∧ t.trace = s.trace ∧
      t.busy = decide (uprog t.op ≠ [])

theorem busOperation_checkedInOrder {i : Instr} (hi : isBusOperation i = true) {s : State} (hb : s.busy = false) :
    CheckedInOrder i s := by
  unfold CheckedInOrder
  split
  next c hf => exact exec_busOperation_faulted hi hb hf
  next hf =>
    split_ifs with hinit hother
    · obtain ⟨rfl, hcs⟩ := hinit
      exact exec_init_raises hb hf hcs
    · exact exec_busOperation_notConfigured hi hother.1 hb hf hother.2
    · have hown : ownFault i s.cs = none :=
        ownFault_eq_none (fun h => by_contra fun hcs => hinit ⟨h, hcs⟩)
          (fun h => by_contra fun hcs => hother ⟨h, hcs⟩)
      obtain ⟨cs, text, haccept⟩ := exec_busOperation_accepts hi hb hf hown
      exact ⟨_, haccept, by simp, by simp, by simp [hf], by simp, by rw [State.accept_busy, State.accept_op]⟩

/-- Settles O41: by the form of the word (R91 to R99). -/
theorem requestChecksInOrder : Obligations.RequestChecksInOrder := by
  intro w s hb
  have form := decodeRequest_form w
  generalize decodeRequest w = i at form
  cases form with
  | illegal => exact exec_illegal hb w
  | convert => exact exec_convert _ s
  | init => exact busOperation_checkedInOrder (i := .init) rfl hb
  | command => exact busOperation_checkedInOrder (i := .command _) rfl hb
  | writeData => exact busOperation_checkedInOrder (i := .writeData _) rfl hb
  | setPosition => exact busOperation_checkedInOrder (i := .setPosition _ _) rfl hb
  | print => exact busOperation_checkedInOrder (i := .print _ _ _) rfl hb
  | clear => exact busOperation_checkedInOrder (i := .clear) rfl hb

/-! ## After a fault (R257, R258) -/

theorem RequestCase.of_faulted {s t : State} (h : RequestCase s t) {c : FaultCode} (hf : s.fault = some c) :
    t.fault = some c ∧ t.busy = s.busy := by
  cases h with
  | converted _ h => simp [h, hf]
  | faulted _ _ h => simp [h, hf]
  | halted _ _ _ h => simp [h, hf]
  | initAccepted _ hnone => simp [hf] at hnone
  | opAccepted _ hnone => simp [hf] at hnone

/-- A faulted block runs nothing: its step is an act of the host's or part of the host's wait, and neither clears the
fault or starts an operation. -/
theorem step_of_faulted {s t : State} (hinv : s.Inv) (hr : s.resetAsserted = false) {c : FaultCode}
    (hf : s.fault = some c) (hstep : step s = .next t) : t.fault = some c ∧ t.busy = false := by
  have hidle : s.busy = false := hinv.faultHalts (by simp [hf])
  have notBusy : s.busy ≠ true := by simp [hidle]
  cases step_cases hstep with
  | reset hr' => simp [hr] at hr'
  | stalled _ _ _ _ h => simp [h, hf, hidle]
  | returned _ _ hp ho => exact absurd (hinv.busy_of_sequencer_delay hp ho) notBusy
  | waited _ _ _ _ _ _ _ h => simp [h, hf, hidle]
  | ended _ _ hb => exact absurd hb notBusy
  | setDone _ _ hb => exact absurd hb notBusy
  | delayHanded _ _ hb => exact absurd hb notBusy
  | idle _ _ _ _ h => simp [h, hf, hidle]
  | request _ _ _ _ _ _ h => simpa [hidle] using (request_cases h).of_faulted (c := c) hf
  | writeTxt _ _ _ _ _ _ _ h => simp [h, hf, hidle]
  | wait _ _ _ _ _ _ h => simp [h, hf, hidle]

/-- Settles O40: the trace, the lines and `cs` move only where an operation runs or starts, and none does. -/
theorem faultIsStickyAndHalts : Obligations.FaultIsStickyAndHalts := by
  intro s t c hinv hr hf hstep
  have hidle : s.busy = false := hinv.faultHalts (by simp [hf])
  obtain ⟨hfault, hbusy⟩ := step_of_faulted hinv hr hf hstep
  refine ⟨hfault, ?_, ?_, ?_, hbusy⟩
  · simpa [State.due_of_not_busy hidle] using step_trace hr hstep
  · by_contra hne
    obtain ⟨hb, -⟩ := linesChangeOnlyBySet s t hr hstep hne
    simp [hidle] at hb
  · have hcs := csMovesOnlyInsideInit s t hinv hr hstep
    simpa [hidle, hbusy] using hcs

/-! ## A stalled collaborator (R272) -/

theorem Timer.answer_of_hung {tm : Timer} (h : tm.hung = true) : tm.answer = none := if_pos h

theorem step_of_hung {s : State} (hr : s.rst = []) (hp : s.pending.isSome = true) (hh : s.timer.hung = true) :
    step s = .next s := by
  obtain ⟨p, hp⟩ := Option.isSome_iff_exists.1 hp
  have hnone : s.awaitDelay p.ms = none := by rw [State.awaitDelay, Timer.answer_of_hung hh, Option.map_none]
  rw [step_of_pending (State.resetAsserted_eq hr) hp, State.tick_eq hr, State.collaborator_of_hung hnone]

/-- A state that steps to itself reaches no other. -/
theorem Reaches.eq_of_step_self {s t : State} (hstep : step s = .next s) (h : Reaches s t) : t = s := by
  obtain ⟨k, hk⟩ := h
  induction k with
  | zero =>
    cases hk
    rfl
  | succ k ih =>
    have hcore : core.step s = .next s := hstep
    exact ih (by simpa [Host.Core.run, hcore] using hk)

/-- Settles O21: the hang is a state that steps to itself. -/
theorem stalledTimingHangs : Obligations.StalledTimingHangs :=
  fun _ _ hr hp hh => Reaches.eq_of_step_self (step_of_hung hr hp hh)

/-! ## The host's program (R262, R277, R278) -/

/-- A failed read leaves the cycle with nothing to do. -/
theorem hostCycle_of_none_mem {reads : List (Option SampleCode)} (h : none ∈ reads) : hostCycle reads = [] := by
  unfold hostCycle
  split
  · simp at h
  · rfl

/-- The loop does a cycle and goes on, unless the cycle is empty. -/
theorem hostLoop_cons (reads : List (Option SampleCode)) (rest : List (List (Option SampleCode))) :
    hostLoop (reads :: rest) = if hostCycle reads = [] then [] else hostCycle reads ++ hostLoop rest := by
  rw [hostLoop]
  split
  next h => rw [if_pos h]
  next h => rw [if_neg h]

theorem cycleActs_ne_nil (c0 c1 c2 c3 c4 c5 : SampleCode) : cycleActs c0 c1 c2 c3 c4 c5 ≠ [] := List.cons_ne_nil _ _

theorem hostLoop_cons_some (c0 c1 c2 c3 c4 c5 : SampleCode) (rest : List (List (Option SampleCode))) :
    hostLoop ([some c0, some c1, some c2, some c3, some c4, some c5] :: rest) =
      cycleActs c0 c1 c2 c3 c4 c5 ++ hostLoop rest :=
  (hostLoop_cons _ rest).trans (if_neg (cycleActs_ne_nil c0 c1 c2 c3 c4 c5))

/-- A request word means one operation, so only `INIT` is requested by `INIT`'s word. -/
theorem eq_init_of_encode {i : Instr} (hi : i.wellFormed = true) (h : encode i = .request 0x10000000) : i = .init := by
  have hdecode := decodeEncodeRoundTrip i hi
  rw [h] at hdecode
  exact (Option.some.inj hdecode).symm

theorem request_not_mem_writeText (w : RequestWord) (text : List Byte) : .request w ∉ writeText text := by
  simp [writeText]

theorem init_not_mem_printActs (row : Byte) (text : List Byte) : .request 0x10000000 ∉ printActs row text := by
  intro h
  rcases List.mem_append.1 h with h | h
  · exact request_not_mem_writeText _ text h
  · have hword : encode (.print row 0 (BitVec.ofNat 8 text.length)) = .request 0x10000000 :=
      congrArg Code.request (HostAct.request.inj (List.mem_singleton.1 h)).symm
    exact Instr.noConfusion (eq_init_of_encode rfl hword)

theorem init_not_mem_cycleActs (c0 c1 c2 c3 c4 c5 : SampleCode) :
    .request 0x10000000 ∉ cycleActs c0 c1 c2 c3 c4 c5 := by
  intro h
  simp only [cycleActs, List.mem_append, List.mem_map, List.mem_singleton] at h
  rcases h with (((⟨c, -, h⟩ | h) | h) | h) | h
  · exact Instr.noConfusion (eq_init_of_encode (i := .convert c) rfl (congrArg Code.request (HostAct.request.inj h)))
  · exact absurd h (by decide)
  · exact init_not_mem_printActs _ _ h
  · exact init_not_mem_printActs _ _ h
  · cases h

theorem init_not_mem_hostCycle (reads : List (Option SampleCode)) : .request 0x10000000 ∉ hostCycle reads := by
  unfold hostCycle
  split
  · exact init_not_mem_cycleActs _ _ _ _ _ _
  · exact List.not_mem_nil

theorem init_not_mem_hostLoop (readings : List (List (Option SampleCode))) :
    .request 0x10000000 ∉ hostLoop readings := by
  induction readings with
  | nil => exact List.not_mem_nil
  | cons reads rest ih =>
    rw [hostLoop_cons]
    split
    · exact List.not_mem_nil
    · exact fun h => (List.mem_append.1 h).elim (init_not_mem_hostCycle reads) ih

/-- Settles O60: the loop is made of whole cycles, and no cycle requests `INIT`. -/
theorem hostStartsOnceThenLoops : Obligations.HostStartsOnceThenLoops := by
  refine ⟨fun readings => ⟨rfl, init_not_mem_hostLoop readings⟩, hostLoop_cons_some, fun reads rest h => ?_⟩
  rw [hostLoop_cons, if_pos (hostCycle_of_none_mem h)]

/-! ## What the host shows of a temperature (R279 to R281) -/

theorem convertValue_open : convertValue 4095 = .posInf := convertWith_open num

/-- A nonnegative value's tenths are the whole part of ten times it, or by the host's rule the next number. -/
theorem tenths_of_nonneg (t : Temp) {x : Rat} (hx : 0 ≤ x) :
    tenths t x =
      if (⌊10 * x⌋₊ : Rat) = 10 * x then ⌊10 * x⌋₊
      else if Config.hostRoundUp t then ⌊10 * x⌋₊ + 1 else ⌊10 * x⌋₊ := by
  rw [tenths, abs_of_nonneg hx]
  rfl

/-- Rounding goes to one of the two neighbours, so it passes no whole number of tenths. -/
theorem tenths_bounds (t : Temp) {x : Rat} (hx : 0 ≤ x) :
    (∀ n : Nat, (n : Rat) ≤ 10 * x → n ≤ tenths t x) ∧ (∀ n : Nat, 10 * x ≤ n → tenths t x ≤ n) ∧
      |10 * x - tenths t x| < 1 := by
  have hle : (⌊10 * x⌋₊ : Rat) ≤ 10 * x := Nat.floor_le (by linarith)
  have hlt := Nat.lt_floor_add_one (10 * x)
  have below : |10 * x - ⌊10 * x⌋₊| < 1 := by
    rw [abs_lt]
    constructor <;> linarith
  rw [tenths_of_nonneg t hx]
  split_ifs with hwhole hup
  · exact ⟨fun _ => Nat.le_floor, fun _ => Nat.floor_le_of_le, below⟩
  · have hstrict : (⌊10 * x⌋₊ : Rat) < 10 * x := lt_of_le_of_ne hle hwhole
    refine ⟨fun n h => (Nat.le_floor h).trans (Nat.le_succ _), fun n h => ?_, ?_⟩
    · exact_mod_cast hstrict.trans_le h
    · rw [abs_lt]
      push_cast
      constructor <;> linarith
  · exact ⟨fun _ => Nat.le_floor, fun _ => Nat.floor_le_of_le, below⟩

theorem digitByte_eq_digitChar {d : Nat} (h : d < 10) : BitVec.ofNat 8 d.digitChar.toNat = digitByte d := by
  revert d
  decide

theorem decimal_of_two_digits {k : Nat} (h10 : 10 ≤ k) (h100 : k < 100) :
    decimal k = [digitByte (k / 10), digitByte (k % 10)] := by
  have htens : k / 10 < 10 := by omega
  rw [decimal, Nat.toDigits_of_base_le (by decide) h10, Nat.toDigits_of_lt_base htens]
  simp [digitByte_eq_digitChar htens, digitByte_eq_digitChar (Nat.mod_lt k (by decide : 0 < 10))]

/-- Three significant digits, the last after the point, are written with no padding. -/
theorem renderFinite_of_three_digits {t : Temp} {x : Rat} (h100 : 100 ≤ tenths t x) (h1000 : tenths t x < 1000) :
    renderFinite t x false =
      [digitByte (tenths t x / 100), digitByte (tenths t x / 10 % 10), 0x2E, digitByte (tenths t x % 10)] := by
  have hdigits := decimal_of_two_digits (k := tenths t x / 10) (by omega) (by omega)
  rw [Nat.div_div_eq_div_mul] at hdigits
  simp [renderFinite, hdigits, onePlace]

/-- Settles O59: `+inf` is shown whole at the end of its line, and between 10 and 99.9 the tenths have three digits. -/
theorem openCircuitShowsAsInf : Obligations.OpenCircuitShowsAsInf := by
  refine ⟨fun c0 c1 c2 c3 c4 => ?_, fun label x h10 h999 => ?_⟩
  · refine ⟨formatField 4 (convertValue c3) ++ [0x20] ++ formatField 5 (convertValue c4) ++ [0x20],
      displayLine 4 (convertValue c3) (convertValue c4) (convertValue 4095), _, ?_, rfl⟩
    rw [convertValue_open]
    rfl
  · have hx : 0 ≤ x := by linarith
    obtain ⟨hlow, hhigh, hnear⟩ := tenths_bounds (.finite x) hx
    have h100 : 100 ≤ tenths (.finite x) x := hlow 100 (by push_cast; linarith)
    have hle : tenths (.finite x) x ≤ 999 := hhigh 999 (by push_cast; linarith)
    have hfield := renderFinite_of_three_digits h100 (by omega)
    generalize tenths (.finite x) x = k at *
    refine ⟨k / 100, k / 10 % 10, k % 10, by omega, by omega, by omega, ?_, ?_⟩
    · rw [formatField, renderTemp, decide_eq_false hx.not_gt, hfield]
      rfl
    · have hsplit : (k : Rat) = 100 * (k / 100 : Nat) + 10 * (k / 10 % 10 : Nat) + (k % 10 : Nat) := by
        exact_mod_cast (by omega : k = 100 * (k / 100) + 10 * (k / 10 % 10) + k % 10)
      rw [abs_lt] at hnear ⊢
      constructor <;> linarith

end Sys2Proof.Machine

/-! # Reset and hazards (70_reset_and_hazards.md): what reset puts back and nothing else does, and the counts of R320's
table -/

namespace Sys2Proof.Machine

/-! ## Reset and no other step (R300, R306, R38, R257) -/

/-- Reset outranks every agent. -/
theorem step_of_reset {s : State} (hr : s.resetAsserted = true) : step s = .next s.applyReset := if_pos hr

/-- A completed micro-operation never moves `cs` to `Unknown` (R37). -/
theorem csAfter_eq_unknown {op : OpLatch} {n : Nat} {c : CtrlState} (h : csAfter op n c = .unknown) : c = .unknown := by
  rw [csAfter_eq] at h
  split_ifs at h <;> exact h

/-- A request moves `cs` only by accepting `INIT`, away from `Unknown` (R37). -/
theorem RequestCase.cs_eq_unknown {s t : State} (h : RequestCase s t) (ht : t.cs = .unknown) : s.cs = .unknown := by
  rcases h.cs_cases with hcs | ⟨hcs, -⟩
  · exact hcs ▸ ht
  · exact hcs

/-- No request clears a fault that is stored (R257). -/
theorem RequestCase.fault_eq_none {s t : State} (h : RequestCase s t) (ht : t.fault = none) : s.fault = none := by
  cases hf : s.fault with
  | none => rfl
  | some c => simp [(h.of_faulted hf).1] at ht

/-- Settles O9: a step without reset moves `cs` only by a request or a completed micro-operation, and `fault` only by a
request. -/
theorem resetIsTheOnlyWayBack : Obligations.ResetIsTheOnlyWayBack := by
  refine ⟨rfl, fun s hr => ⟨_, step_of_reset hr, rfl, rfl, rfl, rfl, rfl, rfl, rfl, rfl, rfl⟩, fun s t hr hstep => ?_⟩
  cases step_cases hstep with
  | reset hr' => simp [hr] at hr'
  | stalled _ _ _ _ h => simp [h]
  | returned _ _ _ _ _ _ _ h => exact h ▸ ⟨by simpa using csAfter_eq_unknown, by simp⟩
  | waited _ _ _ _ _ _ _ h => simp [h]
  | ended _ _ _ _ h => simp [h]
  | setDone _ _ _ _ _ _ h => exact h ▸ ⟨by simpa using csAfter_eq_unknown, by simp⟩
  | delayHanded _ _ _ _ _ h => simp [h]
  | idle _ _ _ _ h => simp [h]
  | request _ _ _ _ _ _ h => exact ⟨(request_cases h).cs_eq_unknown, (request_cases h).fault_eq_none⟩
  | writeTxt _ _ _ _ _ _ _ h => simp [h]
  | wait _ _ _ _ _ _ h => simp [h]

/-! ## Events, latch cycles and requested milliseconds (R320) -/

theorem latchCycles_set (l : Line) (v : Level) : latchCycles [.set l v] = 0 := by
  cases l <;> cases v <;> rfl

theorem latchCycles_latchProgram (n : Nibble) : latchCycles (latchProgram n) = 1 := by
  rw [latchCycles, ← List.append_nil (latchProgram n), observe_latchProgram_append]
  rfl

theorem latchCycles_sendByteProgram (b : Byte) : latchCycles (sendByteProgram b) = 2 := by
  rw [latchCycles, ← List.append_nil (sendByteProgram b), observe_sendByteProgram_append]
  rfl

theorem length_flatMap_writeDataProgram (text : List Byte) : (text.flatMap writeDataProgram).length = 17 * text.length := by
  simp [List.length_flatMap, Nat.mul_comm]

/-- The row of `PRINT`: a position command, which does not settle (R203), and one data byte for each byte of text. -/
theorem printProgram_counts {row : Byte} (hrow : row = 0 ∨ row = 1) (col : Byte) (text : List Byte) :
    (printProgram row col text).length = 17 + 17 * text.length ∧
      latchCycles (printProgram row col text) = 2 + 2 * text.length ∧
      requestedMs (printProgram row col text) = 4 + 4 * text.length := by
  obtain ⟨a, ha⟩ : ∃ a, posCmd row col = some a := ⟨_, (posCmd_eq_some_iff row col _).2 ⟨hrow, rfl⟩⟩
  refine ⟨?_, ?_, requestedMs_printProgram ha text⟩ <;> rw [printProgram_of_valid ha]
  · rw [List.length_append, commandProgram_length, if_neg (posCmd_ne_one ha),
      length_flatMap_writeDataProgram]
  · exact latchCycles_commandProgram_append_text a text

/-- Settles O58: each row counts the micro-program of its operation, `SETPOSITION` being a `PRINT` of no text and `CLEAR`
a `COMMAND 0x01`. -/
theorem eventCountsAndMinimumTimes : Obligations.EventCountsAndMinimumTimes := by
  refine ⟨
    fun l v _ => ⟨rfl, latchCycles_set l v, rfl⟩,
    fun _ _ => ⟨rfl, rfl, rfl⟩,
    fun n _ => ⟨rfl, latchCycles_latchProgram n, rfl⟩,
    fun b _ => ⟨rfl, latchCycles_sendByteProgram b, rfl⟩,
    fun b _ => ⟨commandProgram_length b, latchCycles_commandProgram b, requestedMs_commandProgram b⟩,
    fun _ => ⟨commandProgram_length 0x01, latchCycles_commandProgram 0x01, requestedMs_commandProgram 0x01⟩,
    fun b _ => ⟨rfl, latchCycles_writeDataProgram b, rfl⟩,
    fun row col x hrow => ?setPosition,
    fun _ col _ x hrow => printProgram_counts hrow col x,
    fun row col len x h0 h1 => ?invalidRow,
    fun _ => ⟨initProgram_length _, latchCycles_initProgram _, requestedMs_initProgram _⟩,
    fun _ _ => rfl,
    fun _ _ => rfl,
    printText_length⟩
  case setPosition =>
    rw [uprog_setPosition]
    exact printProgram_counts hrow col []
  case invalidRow =>
    rw [uprog_setPosition, uprog_print]
    exact ⟨printProgram_of_invalid h0 h1 col [], printProgram_of_invalid h0 h1 col x⟩

end Sys2Proof.Machine
